-- ==== Sys2Proof/Word.lean ====
section
/-! DEFINITION. The word types of the block (spec/00_scope.md R6, R8, R9): every register, immediate and
memory byte is an unsigned bit vector of one of these widths. -/

namespace Sys2Proof

/-- A memory byte, a general register or a timer: 8 bits (R6 `REG_W`, `TIMER_W`). -/
abbrev Byte := BitVec 8

/-- `I`, `pc`, a stack entry, the instruction word: 16 bits (R6 `I_W`, `PC_W`, `STACK_ENTRY_W`, `INSN_W`). -/
abbrev Word := BitVec 16

/-- A 4-bit field of the instruction word (R8). -/
abbrev Nibble := BitVec 4

/-- A general register's index, `0x0`–`0xF` (10_state.md R30): in range by construction. -/
abbrev Reg := BitVec 4

/-- The 12-bit address field `nnn` (R12). -/
abbrev Addr12 := BitVec 12

/-- VF, the flag register: `V[15]` (10_state.md R31). -/
def vf : Reg := 0xF#4

end Sys2Proof
end

