-- ==== Sys2Proof/Syntax.lean ====
section
/-! DEFINITION. The 34 instructions of spec/30_encoding.md R104–R108, one constructor per row of
spec/opcode_table.json, in the table's order. A constructor carries every field the table gives its row, the
don't-care bits (R110) included as its last argument `dc`, so that nothing of a word is lost in decoding; no meaning
reads `dc`. -/

namespace Sys2Proof

/-- An instruction (R104–R108). -/
inductive Instr where
  /-- CLS, `dc = op[11:4]` (R270). -/
  | cls (dc : BitVec 8)
  /-- RET, `dc = op[11:4]` (R172). -/
  | ret (dc : BitVec 8)
  /-- JP nnn (R173). -/
  | jp (nnn : Addr12)
  /-- CALL nnn (R174). -/
  | call (nnn : Addr12)
  /-- SE Vx,kk (R175). -/
  | seVxKk (x : Reg) (kk : Byte)
  /-- SNE Vx,kk (R176). -/
  | sneVxKk (x : Reg) (kk : Byte)
  /-- SE Vx,Vy, `dc = op[3:0]` (R177). -/
  | seVxVy (x y : Reg) (dc : Nibble)
  /-- LD Vx,kk (R201). -/
  | ldVxKk (x : Reg) (kk : Byte)
  /-- ADD Vx,kk (R202). -/
  | addVxKk (x : Reg) (kk : Byte)
  /-- LD Vx,Vy (R203). -/
  | ldVxVy (x y : Reg)
  /-- OR Vx,Vy (R204). -/
  | orVxVy (x y : Reg)
  /-- AND Vx,Vy (R205). -/
  | andVxVy (x y : Reg)
  /-- XOR Vx,Vy (R206). -/
  | xorVxVy (x y : Reg)
  /-- ADD Vx,Vy (R207). -/
  | addVxVy (x y : Reg)
  /-- SUB Vx,Vy (R208). -/
  | subVxVy (x y : Reg)
  /-- SHR Vx, `dc = op[7:4]` (R209). -/
  | shrVx (x : Reg) (dc : Nibble)
  /-- SUBN Vx,Vy (R210). -/
  | subnVxVy (x y : Reg)
  /-- SHL Vx, `dc = op[7:4]` (R211). -/
  | shlVx (x : Reg) (dc : Nibble)
  /-- SNE Vx,Vy, `dc = op[3:0]` (R178). -/
  | sneVxVy (x y : Reg) (dc : Nibble)
  /-- LD I,nnn (R240). -/
  | ldI (nnn : Addr12)
  /-- JP V0,nnn (R179). -/
  | jpV0 (nnn : Addr12)
  /-- RND Vx,kk (R212). -/
  | rnd (x : Reg) (kk : Byte)
  /-- DRW Vx,Vy,n (R271). -/
  | drw (x y : Reg) (n : Nibble)
  /-- SKP Vx, `dc = op[7:4]` (R290). -/
  | skp (x : Reg) (dc : Nibble)
  /-- SKNP Vx, `dc = op[7:4]` (R291). -/
  | sknp (x : Reg) (dc : Nibble)
  /-- LD Vx,DT (R292). -/
  | ldVxDt (x : Reg)
  /-- LD Vx,K (R293). -/
  | ldVxK (x : Reg)
  /-- LD DT,Vx (R294). -/
  | ldDtVx (x : Reg)
  /-- LD ST,Vx (R295). -/
  | ldStVx (x : Reg)
  /-- ADD I,Vx (R241). -/
  | addIVx (x : Reg)
  /-- LD F,Vx (R242). -/
  | ldFVx (x : Reg)
  /-- LD B,Vx (R243). -/
  | ldBVx (x : Reg)
  /-- LD [I],Vx (R244). -/
  | ldMemVx (x : Reg)
  /-- LD Vx,[I] (R245). -/
  | ldVxMem (x : Reg)
  deriving DecidableEq, Repr

end Sys2Proof
end

