-- ==== Sys2Proof/Decode.lean ====
section
/-! DEFINITION. Decoding (spec/30_encoding.md R100–R112): the fields of a word, the two-level tables, the decoder on
words and on bytes, total and rejecting by name; after it the encoder, from the same tables. -/

namespace Sys2Proof

/-! ### Fields (R101) -/

/-- `c = op[15:12]`, the opcode class (R101). -/
def fieldC (w : Word) : Nibble := w.extractLsb' 12 4

/-- `x = op[11:8]` (R101; 90_conflicts.md C3). -/
def fieldX (w : Word) : Reg := w.extractLsb' 8 4

/-- `y = op[7:4]` (R101; 90_conflicts.md C3). -/
def fieldY (w : Word) : Reg := w.extractLsb' 4 4

/-- `n = op[3:0]` (R101). -/
def fieldN (w : Word) : Nibble := w.extractLsb' 0 4

/-- `kk = op[7:0]` (R101). -/
def fieldKk (w : Word) : Byte := w.extractLsb' 0 8

/-- `nnn = op[11:0]` (R101). -/
def fieldNnn (w : Word) : Addr12 := w.extractLsb' 0 12

/-- `op[11:4]`, the don't-care bits of class 0 (R110). -/
def fieldDc0 (w : Word) : BitVec 8 := w.extractLsb' 4 8

/-! ### The tables (R103–R109) -/

/-- A decode miss (R109), by the secondary table whose key has no entry. -/
inductive Miss where
  /-- Class 0x0 with `n` not 0x0 or 0xE (R105). -/
  | class0 (n : Nibble)
  /-- Class 0x8 with `n` in 0x8–0xD or 0xF (R106). -/
  | class8 (n : Nibble)
  /-- Class 0xE with `n` not 0x1 or 0xE (R107). -/
  | classE (n : Nibble)
  /-- Class 0xF with a `kk` that R108 does not list. -/
  | classF (kk : Byte)
  deriving DecidableEq, Repr

/-- What a word decodes to: one instruction, or a named miss (R111, R112). -/
inductive Decoded where
  | insn (i : Instr)
  | miss (m : Miss)
  deriving DecidableEq, Repr

/-- `Table0[n]` (R105). -/
def decodeTable0 (w : Word) : Decoded :=
  match (fieldN w).toNat with
  | 0x0 => .insn (.cls (fieldDc0 w))
  | 0xE => .insn (.ret (fieldDc0 w))
  | _ => .miss (.class0 (fieldN w))

/-- `Table8[n]` (R106). -/
def decodeTable8 (w : Word) : Decoded :=
  match (fieldN w).toNat with
  | 0x0 => .insn (.ldVxVy (fieldX w) (fieldY w))
  | 0x1 => .insn (.orVxVy (fieldX w) (fieldY w))
  | 0x2 => .insn (.andVxVy (fieldX w) (fieldY w))
  | 0x3 => .insn (.xorVxVy (fieldX w) (fieldY w))
  | 0x4 => .insn (.addVxVy (fieldX w) (fieldY w))
  | 0x5 => .insn (.subVxVy (fieldX w) (fieldY w))
  | 0x6 => .insn (.shrVx (fieldX w) (fieldY w))
  | 0x7 => .insn (.subnVxVy (fieldX w) (fieldY w))
  | 0xE => .insn (.shlVx (fieldX w) (fieldY w))
  | _ => .miss (.class8 (fieldN w))

/-- `TableE[n]` (R107). -/
def decodeTableE (w : Word) : Decoded :=
  match (fieldN w).toNat with
  | 0xE => .insn (.skp (fieldX w) (fieldY w))
  | 0x1 => .insn (.sknp (fieldX w) (fieldY w))
  | _ => .miss (.classE (fieldN w))

/-- `TableF[kk]` (R108). -/
def decodeTableF (w : Word) : Decoded :=
  match (fieldKk w).toNat with
  | 0x07 => .insn (.ldVxDt (fieldX w))
  | 0x0A => .insn (.ldVxK (fieldX w))
  | 0x15 => .insn (.ldDtVx (fieldX w))
  | 0x18 => .insn (.ldStVx (fieldX w))
  | 0x1E => .insn (.addIVx (fieldX w))
  | 0x29 => .insn (.ldFVx (fieldX w))
  | 0x33 => .insn (.ldBVx (fieldX w))
  | 0x55 => .insn (.ldMemVx (fieldX w))
  | 0x65 => .insn (.ldVxMem (fieldX w))
  | _ => .miss (.classF (fieldKk w))

/-- `Decode(op)`: the primary table (R103, R104). Every class has an entry; the last arm is class 0xF. -/
def decodeWord (w : Word) : Decoded :=
  match (fieldC w).toNat with
  | 0x0 => decodeTable0 w
  | 0x1 => .insn (.jp (fieldNnn w))
  | 0x2 => .insn (.call (fieldNnn w))
  | 0x3 => .insn (.seVxKk (fieldX w) (fieldKk w))
  | 0x4 => .insn (.sneVxKk (fieldX w) (fieldKk w))
  | 0x5 => .insn (.seVxVy (fieldX w) (fieldY w) (fieldN w))
  | 0x6 => .insn (.ldVxKk (fieldX w) (fieldKk w))
  | 0x7 => .insn (.addVxKk (fieldX w) (fieldKk w))
  | 0x8 => decodeTable8 w
  | 0x9 => .insn (.sneVxVy (fieldX w) (fieldY w) (fieldN w))
  | 0xA => .insn (.ldI (fieldNnn w))
  | 0xB => .insn (.jpV0 (fieldNnn w))
  | 0xC => .insn (.rnd (fieldX w) (fieldKk w))
  | 0xD => .insn (.drw (fieldX w) (fieldY w) (fieldN w))
  | 0xE => decodeTableE w
  | _ => decodeTableF w

/-! ### Decoding bytes (R78, R100) -/

/-- The word of two bytes in fetch order: the first byte is bits 15:8 (20_memory.md R78). -/
def wordOfBytes (hi lo : Byte) : Word := hi ++ lo

/-- The first byte in memory of a word: bits 15:8 (20_memory.md R78). -/
def hiByte (w : Word) : Byte := w.extractLsb' 8 8

/-- The second byte in memory of a word: bits 7:0 (20_memory.md R78). -/
def loByte (w : Word) : Byte := w.extractLsb' 0 8

/-- What a sequence of bytes decodes to: an instruction or a named miss with the bytes after it, or too few bytes. -/
inductive DecodedBytes where
  | insn (i : Instr) (rest : List Byte)
  | miss (m : Miss) (rest : List Byte)
  /-- Fewer than two bytes: no instruction word (R100; log entry 10). -/
  | tooShort
  deriving DecidableEq, Repr

/-- The decoder on bytes: it always consumes exactly two (R100). -/
def decode : List Byte → DecodedBytes
  | hi :: lo :: rest =>
    match decodeWord (wordOfBytes hi lo) with
    | .insn i => .insn i rest
    | .miss m => .miss m rest
  | _ => .tooShort

/-- The instruction the decoder reads from the table's word `w` of `nbits` bits: the word laid out big-endian and given
to `decode`; bits at and above `nbits` are 0. -/
def decodeTableWord (nbits w : Nat) : Option Instr :=
  let word : Word := BitVec.ofNat 16 (w % 2 ^ nbits)
  match decode [hiByte word, loByte word] with
  | .insn i _ => some i
  | .miss _ _ => none
  | .tooShort => none

/-! ### The encoder (R101, R104–R108) -/

/-- A word from its four nibbles (R101). -/
def packXyn (c x y n : Nibble) : Word := c ++ x ++ y ++ n

/-- A word from class, register and byte (R101). -/
def packXkk (c x : Nibble) (kk : Byte) : Word := c ++ x ++ kk

/-- A word from class and address (R101). -/
def packNnn (c : Nibble) (nnn : Addr12) : Word := c ++ nnn

/-- A class-0 word from its don't-care byte and its key (R105). -/
def packDc0 (dc : BitVec 8) (n : Nibble) : Word := (0x0#4 : Nibble) ++ dc ++ n

/-- The word of an instruction; of a well-formed one, the canonical word of R104–R108. -/
def encode : Instr → Word
  | .cls dc => packDc0 dc 0x0
  | .ret dc => packDc0 dc 0xE
  | .jp nnn => packNnn 0x1 nnn
  | .call nnn => packNnn 0x2 nnn
  | .seVxKk x kk => packXkk 0x3 x kk
  | .sneVxKk x kk => packXkk 0x4 x kk
  | .seVxVy x y dc => packXyn 0x5 x y dc
  | .ldVxKk x kk => packXkk 0x6 x kk
  | .addVxKk x kk => packXkk 0x7 x kk
  | .ldVxVy x y => packXyn 0x8 x y 0x0
  | .orVxVy x y => packXyn 0x8 x y 0x1
  | .andVxVy x y => packXyn 0x8 x y 0x2
  | .xorVxVy x y => packXyn 0x8 x y 0x3
  | .addVxVy x y => packXyn 0x8 x y 0x4
  | .subVxVy x y => packXyn 0x8 x y 0x5
  | .shrVx x dc => packXyn 0x8 x dc 0x6
  | .subnVxVy x y => packXyn 0x8 x y 0x7
  | .shlVx x dc => packXyn 0x8 x dc 0xE
  | .sneVxVy x y dc => packXyn 0x9 x y dc
  | .ldI nnn => packNnn 0xA nnn
  | .jpV0 nnn => packNnn 0xB nnn
  | .rnd x kk => packXkk 0xC x kk
  | .drw x y n => packXyn 0xD x y n
  | .skp x dc => packXyn 0xE x dc 0xE
  | .sknp x dc => packXyn 0xE x dc 0x1
  | .ldVxDt x => packXkk 0xF x 0x07
  | .ldVxK x => packXkk 0xF x 0x0A
  | .ldDtVx x => packXkk 0xF x 0x15
  | .ldStVx x => packXkk 0xF x 0x18
  | .addIVx x => packXkk 0xF x 0x1E
  | .ldFVx x => packXkk 0xF x 0x29
  | .ldBVx x => packXkk 0xF x 0x33
  | .ldMemVx x => packXkk 0xF x 0x55
  | .ldVxMem x => packXkk 0xF x 0x65

/-- The bytes of an instruction in memory order (20_memory.md R78). -/
def encodeBytes (i : Instr) : List Byte := [hiByte (encode i), loByte (encode i)]

end Sys2Proof
end

