-- ==== Sys2Proof/Config.lean ====
section
/-! DEFINITION. The implementation parameters of spec/00_scope.md R6, the font bytes of spec/20_memory.md R73, and the
free values of the host's two input ports (spec/60_exceptions.md R345, R348), which nothing in Lean can evaluate. -/

namespace Sys2Proof.Config

/-- `MEM_SIZE` (R6). -/
def memSize : Nat := 4096

/-- The highest memory address, 0xFFF (20_memory.md R70). -/
def memTop : Nat := 0xFFF

/-- `FONT_BASE` (R6). -/
def fontBase : Nat := 0x050

/-- `FONT_GLYPH`: bytes per glyph (R6). -/
def fontGlyph : Nat := 5

/-- `PROG_START` (R6). -/
def progStart : Nat := 0x200

/-- `ROM_MAX` (R6). -/
def romMax : Nat := 3584

/-- `STACK_DEPTH` (R6). -/
def stackDepth : Nat := 16

/-- Glyphs 0–3 of the font (20_memory.md R73). -/
def font0 : List Byte :=
  [0xF0, 0x90, 0x90, 0x90, 0xF0,  0x20, 0x60, 0x20, 0x20, 0x70,
   0xF0, 0x10, 0xF0, 0x80, 0xF0,  0xF0, 0x10, 0xF0, 0x10, 0xF0]

/-- Glyphs 4–7 of the font (20_memory.md R73). -/
def font4 : List Byte :=
  [0x90, 0x90, 0xF0, 0x10, 0x10,  0xF0, 0x80, 0xF0, 0x10, 0xF0,
   0xF0, 0x80, 0xF0, 0x90, 0xF0,  0xF0, 0x10, 0x20, 0x40, 0x40]

/-- Glyphs 8–B of the font (20_memory.md R73). -/
def font8 : List Byte :=
  [0xF0, 0x90, 0xF0, 0x90, 0xF0,  0xF0, 0x90, 0xF0, 0x10, 0xF0,
   0xF0, 0x90, 0xF0, 0x90, 0x90,  0xE0, 0x90, 0xE0, 0x90, 0xE0]

/-- Glyphs C–F of the font (20_memory.md R73). -/
def fontC : List Byte :=
  [0xF0, 0x80, 0x80, 0x80, 0xF0,  0xE0, 0x90, 0x90, 0x90, 0xE0,
   0xF0, 0x80, 0xF0, 0x80, 0xF0,  0xF0, 0x80, 0xF0, 0x80, 0x80]

/-- The 80 font bytes at 0x050–0x09F, glyph `d` at `5·d` (20_memory.md R73; UNVERIFIED, log entry 8). -/
def font : List Byte := font0 ++ font4 ++ font8 ++ fontC

/-- FREE VALUE: the keypad levels the host drives for a step, at the step's tick (60_exceptions.md R345: "may set any
levels before any step"; log entry 1). -/
opaque hostKeys : Nat → BitVec 16

/-- FREE VALUE: the random byte the host offers for a step, at the step's tick (60_exceptions.md R348: "any byte,
independently each step"; log entry 1). -/
opaque hostRnd : Nat → BitVec 8

end Sys2Proof.Config
end

