-- ==== Sys2Proof/Machine/State.lean ====
section
/-! DEFINITION. The state of the block (spec/10_state.md R30–R48), the reasons a step can stop, and the state after reset.
State is plain data; every functional definition about it is in Ops.lean and the files after it. -/

namespace Sys2Proof.Machine

/-- Why a step stops. The six fault causes of spec/60_exceptions.md R320 are NOT here: their entry is described (R321,
R322), so they are next states with the fault record written. -/
inductive Fault where
  /-- Raised by CALL and RET when `sp` is above 16, a value "never held" (10_state.md R36, R46), for which the spec gives
  no effect. Safe: no run from reset reaches it, and the model stops there (log entry 5). -/
  | stackPointerRange
  deriving DecidableEq, Repr

/-- Why a step has no meaning. -/
inductive Refusal where
  /-- Raised by `exec` for an instruction without a meaning: safe (the model stops). No arm of `exec` raises it. -/
  | notModelled (mnemonic : String)
  deriving DecidableEq, Repr

/-- The fault causes of 60_exceptions.md R320. -/
inductive FaultCause where
  /-- Code 1: the fetch would read above 0xFFF (R144). -/
  | fetchRange
  /-- Code 2: CALL with 16 entries in use (R170). -/
  | stackOverflow
  /-- Code 3: RET with no entry in use (R171). -/
  | stackUnderflow
  /-- Code 4: an access through I above 0xFFF (R75). -/
  | memRange
  /-- Code 5: SKP or SKNP with Vx above 0xF (R290, R291). -/
  | keyRange
  /-- Code 6: LD F,Vx with Vx above 0xF (R242). -/
  | fontRange
  deriving DecidableEq, Repr

/-- Memory: the (address, byte) pairs that differ from the reset contents, in rising address order (20_memory.md R70;
`Memory.wf` in Ops.lean). -/
abbrev Memory := List Host.Cell

/-- The framebuffer, 32 rows of 64 pixels, `true` = on (10_state.md R38). -/
abbrev Framebuffer := Vector (Vector Bool 64) 32

/-- What the host drives on its two input ports for one step (40_cycle_and_decode.md R140). -/
structure HostInput where
  /-- `key_in`: bit k is the level of key k. -/
  keys : BitVec 16
  /-- `rnd_in`: the byte offered for RND. -/
  rnd : Byte
  deriving DecidableEq, Repr

/-- The step's own local names while it runs (40_cycle_and_decode.md R141; log entry 3). Between steps they are idle. -/
structure StepLocals where
  /-- `A`: the `pc` at the start of the step (R141). -/
  start : Word
  /-- The latch `op` at the start of the step, which a fault puts back (60_exceptions.md R321). -/
  opBefore : Word
  /-- `blocked`: the step executed LD Vx,K with no key pressed (R141). -/
  blocked : Bool
  deriving DecidableEq, Repr

/-- The idle value of the step's locals. -/
def StepLocals.idle : StepLocals := { start := 0, opBefore := 0, blocked := false }

/-- The state of the block. -/
structure State where
  /-- `V[0]`..`V[15]` (R30). -/
  v : Vector Byte 16
  /-- The index register `I` (R33). -/
  i : Word
  /-- The program counter (R34, R35). -/
  pc : Word
  /-- The stack pointer, the number of entries in use (R36). -/
  sp : BitVec 8
  /-- `stack[0]`..`stack[15]` (R36). -/
  stack : Vector Word 16
  /-- The delay timer DT (R37). -/
  dt : Byte
  /-- The sound timer ST (R37). -/
  st : Byte
  /-- The framebuffer (R38). -/
  fb : Framebuffer
  /-- The step's keypad snapshot, bit k = key k (R39). -/
  key : BitVec 16
  /-- The instruction word latch (R40). -/
  op : Word
  /-- The fault record (R41): 0, or the cause code of R320. -/
  faultCause : BitVec 3
  /-- The fault record (R41): the address of the faulting step's instruction. -/
  faultPc : Word
  /-- The fault record (R41): the word of the faulting step, 0 for FETCH_RANGE. -/
  faultWord : Word
  /-- The fault record (R41): the cause-specific value. -/
  faultInfo : Word
  /-- The status output (R42): 0 OK, 1 BLOCKED_ON_KEY, 2 FAULTED. -/
  status : BitVec 2
  /-- The tone output (R43). -/
  toneEdge : Bool
  /-- Memory (20_memory.md R70). -/
  mem : Memory
  /-- MODEL: the levels on the input port `key_in` (R140; log entry 1). -/
  keyIn : BitVec 16
  /-- MODEL: the byte on the input port `rnd_in` (R140; log entry 1). -/
  rndIn : Byte
  /-- MODEL: what the host drives for the steps after the next one, where a run gives it (log entry 1). -/
  pending : List HostInput
  /-- MODEL: the argument of the next free values of the host's ports (log entry 1). -/
  tick : Nat
  /-- MODEL: the load port is closed: a step has been requested since reset (20_memory.md R87, 70_reset_and_hazards.md
  R374; log entry 11). -/
  loadClosed : Bool
  /-- MODEL: the running step's locals (log entry 3). -/
  locals : StepLocals
  deriving DecidableEq, Repr

/-- The state right after reset (10_state.md R48, 70_reset_and_hazards.md R370). Memory lists nothing: an unlisted
address reads as the reset contents, the font included (`Memory.resetByte`). What the host drives for the first step is
free, as for every later one (60_exceptions.md R349; log entry 1); `key` and the MODEL's other fields hold values the log
names (entries 2, 3, 11). -/
def State.reset : State where
  v := Vector.replicate 16 0
  i := 0x0000
  pc := 0x200
  sp := 0
  stack := Vector.replicate 16 0
  dt := 0
  st := 0
  fb := Vector.replicate 32 (Vector.replicate 64 false)
  key := 0
  op := 0x0000
  faultCause := 0
  faultPc := 0
  faultWord := 0
  faultInfo := 0
  status := 0
  toneEdge := false
  mem := []
  keyIn := Config.hostKeys 0
  rndIn := Config.hostRnd 0
  pending := []
  tick := 1
  loadClosed := false
  locals := StepLocals.idle

end Sys2Proof.Machine
end

