-- ==== Sys2Proof/Machine/Ops.lean ====
section
/-! DEFINITION. The named operations every meaning is written with: memory (spec/20_memory.md), registers
(spec/10_state.md), pixels, fault entry (spec/60_exceptions.md R320–R323), the stack primitives and Skip
(spec/41_control_flow.md R170, R171, R180), and the range checks. -/

namespace Sys2Proof.Machine

/-- The answer of a meaning or of a step. -/
abbrev Result := Host.Outcome State Fault Refusal

/-- `f` applied to a next state; a fault or a refusal stays. -/
def Result.map (f : State → State) : Result → Result
  | .next s => .next (f s)
  | .fault r => .fault r
  | .refused r => .refused r

/-! ### Memory (20_memory.md) -/

/-- What an address that memory does not list reads as: the reset contents, the font at 0x050–0x09F and 0x00 elsewhere
(R73; 10_state.md R48). -/
def Memory.resetByte (a : Nat) : Byte :=
  if Config.fontBase ≤ a then Config.font.getD (a - Config.fontBase) 0 else 0

/-- `MemRead(a, 1)` (R72). Callers establish `a ≤ 0xFFF`; above it the reset contents read as 0 (log entry 6). -/
def Memory.read : Memory → Nat → Byte
  | [], a => Memory.resetByte a
  | (b, w) :: m, a => if a = b then w else Memory.read m a

/-- The list without the address `a`. -/
def Memory.erase (m : Memory) (a : Nat) : Memory := m.filter (fun c => c.1 != a)

/-- The list with the byte `v` at the address `a`, in rising order. -/
def Memory.insert : Memory → Nat → Byte → Memory
  | [], a, v => [(a, v)]
  | (b, w) :: m, a, v =>
    if a < b then (a, v) :: (b, w) :: m
    else if a = b then (a, v) :: m
    else (b, w) :: Memory.insert m a v

/-- `MemWrite(a, 1, v)` (R72): exactly one byte changes. Callers establish `a ≤ 0xFFF`; above it nothing is written
(log entry 6). Writing the reset contents takes the address off the list, so that equal memories are equal lists. -/
def Memory.write (m : Memory) (a : Nat) (v : Byte) : Memory :=
  if a < Config.memSize then
    if v = Memory.resetByte a then Memory.erase m a else Memory.insert m a v
  else m

/-- One entry is in canonical form: inside memory, and not equal to what it would read as unlisted. -/
def Memory.cellOk (c : Host.Cell) : Bool := decide (c.1 < Config.memSize) && c.2 != Memory.resetByte c.1

/-- The canonical form: addresses strictly rising, every entry `cellOk`. -/
def Memory.wf (m : Memory) : Bool :=
  decide (m.Pairwise (fun c d => c.1 < d.1)) && m.all Memory.cellOk

/-- Bytes stored at `base`, `base + 1`, … in ascending order (R81). -/
def Memory.writeAll : Memory → Nat → List Byte → Memory
  | m, _, [] => m
  | m, base, b :: bs => Memory.writeAll (Memory.write m base b) (base + 1) bs

/-! ### Registers (10_state.md) -/

/-- `V[x]` (R30). -/
def State.reg (s : State) (x : Reg) : Byte := s.v[x.toNat]

/-- `V[x] <- b` (R30). -/
def State.setReg (s : State) (x : Reg) (b : Byte) : State := { s with v := s.v.set x.toNat b }

/-- `V[15] <- f`: the flag, written last (R31, R32). -/
def State.setFlag (s : State) (f : Byte) : State := s.setReg vf f

/-- `I <- a` (R33). -/
def State.setI (s : State) (a : Word) : State := { s with i := a }

/-- `pc <- a` (R35). -/
def State.setPc (s : State) (a : Word) : State := { s with pc := a }

/-- `DT <- b` (R37). -/
def State.setDt (s : State) (b : Byte) : State := { s with dt := b }

/-- `ST <- b` (R37). -/
def State.setSt (s : State) (b : Byte) : State := { s with st := b }

/-- The framebuffer replaced (R38). -/
def State.setFb (s : State) (fb : Framebuffer) : State := { s with fb := fb }

/-- Memory replaced (20_memory.md R70). -/
def State.setMem (s : State) (m : Memory) : State := { s with mem := m }

/-- One stack entry and the stack pointer written (R36). -/
def State.setStack (s : State) (stack : Vector Word 16) (sp : BitVec 8) : State := { s with stack := stack, sp := sp }

/-- `blocked <- true` (40_cycle_and_decode.md R141). -/
def State.setBlocked (s : State) : State := { s with locals := { s.locals with blocked := true } }

/-! ### Pixels (10_state.md R38) -/

/-- `fb[x][y]` (R38). -/
def Framebuffer.pixel (fb : Framebuffer) (x : Fin 64) (y : Fin 32) : Bool := fb[y.val][x.val]

/-- `fb[x][y] <- p` (R38). -/
def Framebuffer.setPixel (fb : Framebuffer) (x : Fin 64) (y : Fin 32) (p : Bool) : Framebuffer :=
  fb.set y.val (fb[y.val].set x.val p)

/-- Every pixel off. -/
def Framebuffer.clear : Framebuffer := Vector.replicate 32 (Vector.replicate 64 false)

/-! ### Fault entry (60_exceptions.md R320–R323) -/

/-- The cause code (R320). -/
def FaultCause.code : FaultCause → BitVec 3
  | .fetchRange => 1
  | .stackOverflow => 2
  | .stackUnderflow => 3
  | .memRange => 4
  | .keyRange => 5
  | .fontRange => 6

/-- `status` values (10_state.md R42). -/
def statusOk : BitVec 2 := 0

/-- `status` values (10_state.md R42). -/
def statusBlocked : BitVec 2 := 1

/-- `status` values (10_state.md R42). -/
def statusFaulted : BitVec 2 := 2

/-- The block is faulted exactly when `fault_cause ≠ 0` (10_state.md R41). -/
def State.faulted (s : State) : Bool := s.faultCause != 0

/-- `raise Fault(cause, info)`: the one fault entry (R321, R322). What the step has changed so far is the latch and the
pc alone, because every check comes before the writes (R321), so those two go back to their values at the start of the
step; then the record is written. There is no return from it: only reset leaves the faulted condition (R323). -/
def State.raise (s : State) (cause : FaultCause) (info : Word) : State :=
  { s with
    pc := s.locals.start
    op := s.locals.opBefore
    faultCause := cause.code
    faultPc := s.locals.start
    faultWord := if cause = .fetchRange then 0 else s.op
    faultInfo := info
    status := statusFaulted
    toneEdge := false }

/-! ### Range checks -/

/-- `max(base, 0x1000)`: the lowest address of an access from `base` that lies outside memory (R75, R144). -/
def firstOutside (base : Word) : Word := if base.toNat < 0x1000 then 0x1000 else base

/-- The condition of `CheckRange(base, count)`, on unbounded integers (20_memory.md R74, R75). -/
def outOfRange (base : Word) (count : Nat) : Bool :=
  decide (0 < count) && decide (base.toNat + count - 1 > Config.memTop)

/-- `CheckRange(I, count)` and then `k`: MEM_RANGE before any access or write (20_memory.md R75). -/
def State.checkRange (s : State) (count : Nat) (k : State → State) : Result :=
  if outOfRange s.i count then .next (s.raise .memRange (firstOutside s.i)) else .next (k s)

/-- A register value used as one of 16 indices, or the given fault with the value as its info (60_exceptions.md R320,
codes 5 and 6). -/
def State.checkIndex (s : State) (cause : FaultCause) (v : Byte) (k : Nibble → State → State) : Result :=
  if v.toNat > 0xF then .next (s.raise cause (v.setWidth 16)) else .next (k (v.setWidth 4) s)

/-! ### Control transfer (41_control_flow.md) -/

/-- `Skip()` (R180). -/
def State.skip (s : State) : State := s.setPc (s.pc + 2)

/-- `if c then Skip()` (R180). -/
def State.skipIf (s : State) (c : Bool) : State := if c then s.skip else s

/-- `Push(v)` and then `k` (R170). A pointer above 16 is never held (10_state.md R36) and stops the model. -/
def State.push (s : State) (v : Word) (k : State → State) : Result :=
  if h : s.sp.toNat < 16 then .next (k (s.setStack (s.stack.set s.sp.toNat v) (s.sp + 1)))
  else if s.sp.toNat = 16 then .next (s.raise .stackOverflow 16)
  else .fault .stackPointerRange

/-- `Pop()`, whose value goes to `k` (R171). The stale entry stays (10_state.md R36). -/
def State.pop (s : State) (k : Word → State → State) : Result :=
  if s.sp = 0 then .next (s.raise .stackUnderflow 0)
  else if h : s.sp.toNat - 1 < 16 then .next (k s.stack[s.sp.toNat - 1] (s.setStack s.stack (s.sp - 1)))
  else .fault .stackPointerRange

end Sys2Proof.Machine
end

