-- ==== Sys2Proof/Machine/Operands.lean ====
section
/-! DEFINITION. The operand forms (spec/30_encoding.md R102) and the values instructions compute from them that are no
flags: addresses, digits, key numbers, sprite bits. -/

namespace Sys2Proof.Machine

/-- `zext_16(nnn)` (R102). -/
def addrOperand (nnn : Addr12) : Word := nnn.setWidth 16

/-- A register's value as an addend of a 16-bit sum: zero-extended (00_scope.md R9). -/
def wordOperand (b : Byte) : Word := b.setWidth 16

/-- `0x050 + 5·d`, the address of glyph `d` (43_index_memory.md R242). -/
def glyphAddr (d : Nibble) : Word := BitVec.ofNat 16 (Config.fontBase + Config.fontGlyph * d.toNat)

/-- The decimal digits of a byte, hundreds first (43_index_memory.md R243). -/
def decimalDigits (v : Byte) : List Byte :=
  [BitVec.ofNat 8 (v.toNat / 100), BitVec.ofNat 8 (v.toNat / 10 % 10), BitVec.ofNat 8 (v.toNat % 10)]

/-- The number of registers of LD [I],Vx and LD Vx,[I]: `x + 1` (43_index_memory.md R244, R245). -/
def blockCount (x : Reg) : Nat := x.toNat + 1

/-- `V[0]`..`V[x]` in ascending order (43_index_memory.md R244). -/
def State.block (s : State) (x : Reg) : List Byte :=
  (List.range (blockCount x)).map (fun k => s.reg (BitVec.ofNat 4 k))

/-- `V[k] <- MemRead(I + k, 1)` for `k = 0..count-1`, ascending (43_index_memory.md R245). -/
def State.loadBlock (s : State) : Nat → State
  | 0 => s
  | k + 1 => (s.loadBlock k).setReg (BitVec.ofNat 4 k) (s.mem.read (s.i.toNat + k))

/-- `key[k]` in the step's snapshot (10_state.md R39). -/
def State.keyDown (s : State) (k : Nibble) : Bool := s.key.getLsbD k.toNat

/-- The least pressed key in the snapshot, if any (45_keypad_timer_ops.md R293). -/
def State.leastKey (s : State) : Option Nat := (List.range 16).find? (fun k => s.key.getLsbD k)

/-- The start column of a sprite: `V[x] mod 64` (44_display.md R271). -/
def startColumn (b : Byte) : Nat := b.toNat % 64

/-- The start row of a sprite: `V[y] mod 32` (44_display.md R271). -/
def startRow (b : Byte) : Nat := b.toNat % 32

/-- Column `c` of a sprite row: bit 7 is the leftmost pixel (44_display.md R272). -/
def spriteBit (row : Byte) (c : Nat) : Bool := row.getLsbD (7 - c)

end Sys2Proof.Machine
end

