-- ==== Sys2Proof/Machine/Flags.lean ====
section
/-! DEFINITION. The flag functions, each from the operand values before any write (spec/42_alu.md R200;
spec/44_display.md R273), and the one way a flag is written: last (spec/10_state.md R32). -/

namespace Sys2Proof.Machine

/-- A flag as VF holds it: 1 or 0 (R200). -/
def flagByte (c : Bool) : Byte := if c then 1 else 0

/-- Carry of `a + b`: the true sum exceeds 255 (R207). -/
def carry (a b : Byte) : Bool := decide (a.toNat + b.toNat > 255)

/-- No borrow of `a - b`: `a ≥ b` (R208, R210). -/
def noBorrow (a b : Byte) : Bool := decide (a.toNat ≥ b.toNat)

/-- The bit SHR shifts out: bit 0 (R209). -/
def shrOut (a : Byte) : Bool := a.getLsbD 0

/-- The bit SHL shifts out: bit 7 (R211). -/
def shlOut (a : Byte) : Bool := a.getLsbD 7

/-- A pixel's collision report: it was on and the sprite's bit is on (44_display.md R273). -/
def collides (old bit : Bool) : Bool := old && bit

/-- The result to `V[x]`, then the flag to VF, last (10_state.md R32). -/
def State.setRegFlag (s : State) (x : Reg) (result : Byte) (f : Bool) : State :=
  (s.setReg x result).setFlag (flagByte f)

end Sys2Proof.Machine
end

