-- ==== Sys2Proof/Machine/Alu.lean ====
section
/-! DEFINITION. The ALU, register loads and RND (spec/42_alu.md): one meaning per instruction. -/

namespace Sys2Proof.Machine

/-- LD Vx,kk (R201). -/
def execLdVxKk (x : Reg) (kk : Byte) (s : State) : Result := .next (s.setReg x kk)

/-- ADD Vx,kk: no flag (R202). -/
def execAddVxKk (x : Reg) (kk : Byte) (s : State) : Result := .next (s.setReg x (s.reg x + kk))

/-- LD Vx,Vy (R203). -/
def execLdVxVy (x y : Reg) (s : State) : Result := .next (s.setReg x (s.reg y))

/-- OR Vx,Vy: VF is not written (R204). -/
def execOrVxVy (x y : Reg) (s : State) : Result := .next (s.setReg x (s.reg x ||| s.reg y))

/-- AND Vx,Vy: VF is not written (R205). -/
def execAndVxVy (x y : Reg) (s : State) : Result := .next (s.setReg x (s.reg x &&& s.reg y))

/-- XOR Vx,Vy: VF is not written (R206). -/
def execXorVxVy (x y : Reg) (s : State) : Result := .next (s.setReg x (s.reg x ^^^ s.reg y))

/-- ADD Vx,Vy (R207). -/
def execAddVxVy (x y : Reg) (s : State) : Result :=
  .next (s.setRegFlag x (s.reg x + s.reg y) (carry (s.reg x) (s.reg y)))

/-- SUB Vx,Vy (R208). -/
def execSubVxVy (x y : Reg) (s : State) : Result :=
  .next (s.setRegFlag x (s.reg x - s.reg y) (noBorrow (s.reg x) (s.reg y)))

/-- SHR Vx (R209). -/
def execShrVx (x : Reg) (s : State) : Result := .next (s.setRegFlag x (s.reg x >>> 1) (shrOut (s.reg x)))

/-- SUBN Vx,Vy (R210). -/
def execSubnVxVy (x y : Reg) (s : State) : Result :=
  .next (s.setRegFlag x (s.reg y - s.reg x) (noBorrow (s.reg y) (s.reg x)))

/-- SHL Vx (R211). -/
def execShlVx (x : Reg) (s : State) : Result := .next (s.setRegFlag x (s.reg x <<< 1) (shlOut (s.reg x)))

/-- RND Vx,kk: `rnd` is the byte the host offers for this step (R212; 60_exceptions.md R348). -/
def execRnd (x : Reg) (kk : Byte) (s : State) : Result := .next (s.setReg x (s.rndIn &&& kk))

end Sys2Proof.Machine
end

