-- ==== Sys2Proof/Machine/Control.lean ====
section
/-! DEFINITION. Control flow (spec/41_control_flow.md): the meanings of RET, JP, CALL, SE, SNE and JP V0. A meaning runs
after the fetch, so `pc` holds the instruction's address plus 2 (spec/40_cycle_and_decode.md R144). -/

namespace Sys2Proof.Machine

/-- RET (R172). -/
def execRet (s : State) : Result := s.pop (fun a t => t.setPc a)

/-- JP nnn (R173). -/
def execJp (nnn : Addr12) (s : State) : Result := .next (s.setPc (addrOperand nnn))

/-- CALL nnn (R174). -/
def execCall (nnn : Addr12) (s : State) : Result := s.push s.pc (fun t => t.setPc (addrOperand nnn))

/-- SE Vx,kk (R175). -/
def execSeVxKk (x : Reg) (kk : Byte) (s : State) : Result := .next (s.skipIf (s.reg x == kk))

/-- SNE Vx,kk (R176). -/
def execSneVxKk (x : Reg) (kk : Byte) (s : State) : Result := .next (s.skipIf (s.reg x != kk))

/-- SE Vx,Vy (R177). -/
def execSeVxVy (x y : Reg) (s : State) : Result := .next (s.skipIf (s.reg x == s.reg y))

/-- SNE Vx,Vy (R178). -/
def execSneVxVy (x y : Reg) (s : State) : Result := .next (s.skipIf (s.reg x != s.reg y))

/-- JP V0,nnn (R179). -/
def execJpV0 (nnn : Addr12) (s : State) : Result := .next (s.setPc (addrOperand nnn + wordOperand (s.reg 0)))

end Sys2Proof.Machine
end

