-- ==== Sys2Proof/Machine/Display.lean ====
section
/-! DEFINITION. The framebuffer instructions CLS and DRW with the sprite-XOR collision detector (spec/44_display.md). -/

namespace Sys2Proof.Machine

/-- One sprite pixel at column `px`, row `py`: clipped off the screen, else XORed, with its collision report ORed into the
flag (R271, R273, R274). -/
def drawPixel (px py : Nat) (bit : Bool) (acc : Framebuffer × Bool) : Framebuffer × Bool :=
  if h : px < 64 ∧ py < 32 then
    let old := acc.1.pixel ⟨px, h.1⟩ ⟨py, h.2⟩
    (acc.1.setPixel ⟨px, h.1⟩ ⟨py, h.2⟩ (old ^^ bit), acc.2 || collides old bit)
  else acc

/-- One sprite row, columns 0..7 from `x0` (R271, R272). -/
def drawRow (row : Byte) (x0 py : Nat) (acc : Framebuffer × Bool) : Framebuffer × Bool :=
  (List.range 8).foldl (fun a c => drawPixel (x0 + c) py (spriteBit row c) a) acc

/-- Rows 0..n-1 of the sprite at `base`, drawn from `(x0, y0)` down (R271). -/
def drawSprite (m : Memory) (base n x0 y0 : Nat) (fb : Framebuffer) : Framebuffer × Bool :=
  (List.range n).foldl (fun a r => drawRow (m.read (base + r)) x0 (y0 + r) a) (fb, false)

/-- CLS (R270). -/
def execCls (s : State) : Result := .next (s.setFb Framebuffer.clear)

/-- The draw of DRW, after its range check: the pixels, then VF, last (R271). -/
def State.draw (s : State) (x y : Reg) (n : Nibble) : State :=
  let drawn := drawSprite s.mem s.i.toNat n.toNat (startColumn (s.reg x)) (startRow (s.reg y)) s.fb
  (s.setFb drawn.1).setFlag (flagByte drawn.2)

/-- DRW Vx,Vy,n (R271, R275). -/
def execDrw (x y : Reg) (n : Nibble) (s : State) : Result := s.checkRange n.toNat (fun t => t.draw x y n)

end Sys2Proof.Machine
end

