-- ==== Sys2Proof/Machine/IndexMemory.lean ====
section
/-! DEFINITION. The index register and the memory transfers (spec/43_index_memory.md): one meaning per instruction. Every
transfer checks its whole range before its first access (spec/20_memory.md R75). -/

namespace Sys2Proof.Machine

/-- LD I,nnn (R240). -/
def execLdI (nnn : Addr12) (s : State) : Result := .next (s.setI (addrOperand nnn))

/-- ADD I,Vx: modulo 2^16, VF not written (R241). -/
def execAddIVx (x : Reg) (s : State) : Result := .next (s.setI (s.i + wordOperand (s.reg x)))

/-- LD F,Vx (R242). -/
def execLdFVx (x : Reg) (s : State) : Result := s.checkIndex .fontRange (s.reg x) (fun d t => t.setI (glyphAddr d))

/-- LD B,Vx (R243). -/
def execLdBVx (x : Reg) (s : State) : Result :=
  s.checkRange 3 (fun t => t.setMem (t.mem.writeAll t.i.toNat (decimalDigits (t.reg x))))

/-- LD [I],Vx: I is unchanged (R244). -/
def execLdMemVx (x : Reg) (s : State) : Result :=
  s.checkRange (blockCount x) (fun t => t.setMem (t.mem.writeAll t.i.toNat (t.block x)))

/-- LD Vx,[I]: I is unchanged (R245). -/
def execLdVxMem (x : Reg) (s : State) : Result := s.checkRange (blockCount x) (fun t => t.loadBlock (blockCount x))

end Sys2Proof.Machine
end

