-- ==== Sys2Proof/Machine/KeypadTimer.lean ====
section
/-! DEFINITION. The keypad and timer instructions (spec/45_keypad_timer_ops.md): one meaning per instruction. The timer
phase is not here: it follows every completed step (Phases.lean). -/

namespace Sys2Proof.Machine

/-- SKP Vx (R290). -/
def execSkp (x : Reg) (s : State) : Result := s.checkIndex .keyRange (s.reg x) (fun k t => t.skipIf (t.keyDown k))

/-- SKNP Vx (R291). -/
def execSknp (x : Reg) (s : State) : Result := s.checkIndex .keyRange (s.reg x) (fun k t => t.skipIf (!t.keyDown k))

/-- LD Vx,DT: the value before this step's timer phase (R292). -/
def execLdVxDt (x : Reg) (s : State) : Result := .next (s.setReg x s.dt)

/-- LD Vx,K: the least pressed key, or back to the instruction and blocked (R293). -/
def execLdVxK (x : Reg) (s : State) : Result :=
  .next (match s.leastKey with
    | some k => s.setReg x (BitVec.ofNat 8 k)
    | none => (s.setPc (s.pc - 2)).setBlocked)

/-- LD DT,Vx (R294). -/
def execLdDtVx (x : Reg) (s : State) : Result := .next (s.setDt (s.reg x))

/-- LD ST,Vx (R295). -/
def execLdStVx (x : Reg) (s : State) : Result := .next (s.setSt (s.reg x))

end Sys2Proof.Machine
end

