-- ==== Sys2Proof/Machine/Phases.lean ====
section
/-! DEFINITION. The phases of a step around its instruction (spec/40_cycle_and_decode.md R141–R150; spec/60_exceptions.md
R337): sampling, fetch, a decode miss, timers, status, the inert step of a faulted block, and the host's next inputs. -/

namespace Sys2Proof.Machine

/-- The start of a step that is not faulted: the keypad is sampled (R143) and the step's locals are set (R141). -/
def State.begin (s : State) : State :=
  { s with key := s.keyIn, locals := { start := s.pc, opBefore := s.op, blocked := false } }

/-- The word at `pc`, high byte first (20_memory.md R78). -/
def State.wordAt (s : State) (a : Nat) : Word := s.mem.read a ++ s.mem.read (a + 1)

/-- The state after a fetch inside memory: the latch loaded and `pc` advanced by 2 (R144). -/
def State.fetched (s : State) : State := { s with op := s.wordAt s.pc.toNat, pc := s.pc + 2 }

/-- Fetch: FETCH_RANGE, or the latch loaded and `pc` advanced by 2 (R144). -/
def State.fetch (s : State) : State :=
  if s.pc.toNat + 1 > Config.memTop then s.raise .fetchRange (firstOutside s.pc)
  else s.fetched

/-- Executing a decode miss changes no state (R150). -/
def execMiss (s : State) : Result := .next s

/-- A timer's decrement: by 1 while above 0, never below (60_exceptions.md R337). -/
def countDown (t : Byte) : Byte := if t = 0 then 0 else t - 1

/-- The timer phase (60_exceptions.md R337, R338). -/
def State.timerPhase (s : State) : State :=
  { s with dt := countDown s.dt, st := countDown s.st, toneEdge := s.st == 1 }

/-- The status write of a step that did not fault (R148). -/
def State.writeStatus (s : State) : State :=
  { s with status := if s.locals.blocked then statusBlocked else statusOk }

/-- A step requested while the block is faulted (R142). -/
def State.inert (s : State) : State := { s with status := statusFaulted, toneEdge := false }

/-- The step's locals go idle (log entry 3). -/
def State.clearLocals (s : State) : State := { s with locals := StepLocals.idle }

/-- The load port closes: a step has been requested (70_reset_and_hazards.md R374; log entry 11). -/
def State.closeLoad (s : State) : State := { s with loadClosed := true }

/-- The host drives its ports for the next step: what the run gives, else free values (log entry 1). -/
def State.hostDrive (s : State) : State :=
  match s.pending with
  | [] => { s with keyIn := Config.hostKeys s.tick, rndIn := Config.hostRnd s.tick, tick := s.tick + 1 }
  | h :: rest => { s with keyIn := h.keys, rndIn := h.rnd, pending := rest }

/-- The timer phase and the status write of a step that did not fault; neither of a step that did (R147–R149). -/
def State.endPhases (s : State) : State := if s.faulted then s else s.timerPhase.writeStatus

/-- The end of every step. -/
def State.finish (s : State) : State := s.endPhases.clearLocals.closeLoad.hostDrive

end Sys2Proof.Machine
end

