-- ==== Sys2Proof/Machine/HostPort.lean ====
section
/-! DEFINITION. What the host does between steps (spec/60_exceptions.md R345–R349; spec/70_reset_and_hazards.md R370–R375):
reset, the ROM load, and reading the framebuffer. None of these is a step. -/

namespace Sys2Proof.Machine

/-- `rst`: every piece of the block's state goes to its reset value, the fault record included (R370). What the host is
driving on its ports is not the block's state and stays; the load port is open again (R374). -/
def State.rst (s : State) : State :=
  { State.reset with keyIn := s.keyIn, rndIn := s.rndIn, pending := s.pending, tick := s.tick }

/-- The effect of one load-port write; an address below 0x200 has none (R374). -/
def State.loadByte (s : State) (addr : Addr12) (data : Byte) : State :=
  if addr.toNat < Config.progStart then s else s.setMem (s.mem.write addr.toNat data)

/-- One write through the load port: the host has this move only between reset and the first step (R374; 20_memory.md
R87). -/
def State.loadPort (s : State) (addr : Addr12) (data : Byte) : Option State :=
  if s.loadClosed then none else some (s.loadByte addr data)

/-- Bytes `k`, `k + 1`, … of a ROM through the load port (R374). -/
def State.loadFrom (s : State) : Nat → List Byte → State
  | _, [] => s
  | k, b :: bs => (s.loadByte (BitVec.ofNat 12 (Config.progStart + k)) b).loadFrom (k + 1) bs

/-- The ROM load: byte `k` to 0x200 + k; a ROM of more than 3584 bytes is rejected and nothing is written (R374).
Like the port, it is a move of the host only between reset and the first step (20_memory.md R87). -/
def State.loadRom (s : State) (rom : List Byte) : Option State :=
  if s.loadClosed then none
  else if rom.length > Config.romMax then none
  else some (s.loadFrom 0 rom)

/-- `fb_pixel = fb[fb_x][fb_y]`: the framebuffer read port (60_exceptions.md R346). -/
def State.fbPixel (s : State) (x : BitVec 6) (y : BitVec 5) : Bool := s.fb.pixel x.toFin y.toFin

/-- The linear index of a pixel in a copied framebuffer: `y·64 + x` (60_exceptions.md R346). -/
def fbIndex (x : BitVec 6) (y : BitVec 5) : Nat := y.toNat * 64 + x.toNat

end Sys2Proof.Machine
end

