-- ==== Sys2Proof/Machine/Step.lean ====
section
/-! DEFINITION. The step (spec/40_cycle_and_decode.md R141): fetch, decode, execute, timers, status, from the phases of
Phases.lean; and where the host puts the next instruction. -/

namespace Sys2Proof.Machine

/-- Decode and execute the latched word (R145, R146, R150). -/
def execWord (s : State) : Host.Outcome State Fault Refusal :=
  match decodeWord s.op with
  | .insn i => exec i s
  | .miss _ => execMiss s

/-- The phases after the fetch; a fetch that faulted decodes nothing (R149). -/
def execFetched (s : State) : Host.Outcome State Fault Refusal :=
  if s.faulted then .next s else execWord s

/-- One step (R141). -/
def step (s : State) : Host.Outcome State Fault Refusal :=
  if s.faulted then .next s.inert.finish
  else Result.map State.finish (execFetched s.begin.fetch)

/-- `s` with the word `w` of `nbits` bits (the bits above them 0) at `pc`, high byte first (20_memory.md R78). -/
def State.withFetchWord (s : State) (nbits w : Nat) : State :=
  let word : Word := BitVec.ofNat 16 (w % 2 ^ nbits)
  s.setMem (s.mem.writeAll s.pc.toNat [hiByte word, loByte word])

end Sys2Proof.Machine
end

