-- ==== Sys2Proof/Safety.lean ====
section
/-! DEFINITION. What claims are stated in: the invariants of the block, what counts as a safe run, frames, fault entry as
a relation between two states, and what each instruction may write, as the spec lists it. -/

namespace Sys2Proof.Machine

/-! ### Invariants -/

/-- The legal values of spec/10_state.md R36, R41, R42, R46 and the canonical form of memory: a stack pointer of at most
16, a cause code of at most 6, a status of at most 2 which is FAULTED exactly when a fault is recorded, no tone while
faulted, and (MODEL, log entry 3) idle locals. -/
abbrev State.Inv (s : State) : Prop :=
  s.mem.wf = true ∧ s.sp.toNat ≤ 16 ∧ s.faultCause.toNat ≤ 6 ∧ s.status.toNat ≤ 2 ∧
    (s.faultCause ≠ 0 ↔ s.status = 2) ∧ (s.faultCause ≠ 0 → s.toneEdge = false) ∧ s.locals = StepLocals.idle

/-- The bounds of spec/41_control_flow.md R181: `pc` at most 0x10FE and every stack entry at most 0x1000. -/
abbrev State.PcBounded (s : State) : Prop :=
  s.pc.toNat ≤ 0x10FE ∧ ∀ j : Fin 16, s.stack[j].toNat ≤ 0x1000

/-- A run is safe so far when no fault is recorded (spec/92_eei_decisions.md D8). -/
abbrev State.Safe (s : State) : Prop := s.faultCause = 0

/-! ### Frames -/

/-- The parts of the state a frame speaks of. -/
inductive Part where
  | regs | index | pc | sp | stack | dt | st | fb | key | op | faultRecord | status | tone | mem | ports | locals
  deriving DecidableEq, Repr

/-- A part of the state is the same before (`s`) and after (`t`); memory through the read of one byte, and the ports
through what the host drives and whether the load port is closed. -/
def Part.same (p : Part) (s t : State) : Prop :=
  match p with
  | .regs => ∀ r : Reg, t.reg r = s.reg r
  | .index => t.i = s.i
  | .pc => t.pc = s.pc
  | .sp => t.sp = s.sp
  | .stack => ∀ j : Fin 16, t.stack[j] = s.stack[j]
  | .dt => t.dt = s.dt
  | .st => t.st = s.st
  | .fb => ∀ (x : Fin 64) (y : Fin 32), t.fb.pixel x y = s.fb.pixel x y
  | .key => t.key = s.key
  | .op => t.op = s.op
  | .faultRecord => t.faultCause = s.faultCause ∧ t.faultPc = s.faultPc ∧ t.faultWord = s.faultWord ∧ t.faultInfo = s.faultInfo
  | .status => t.status = s.status
  | .tone => t.toneEdge = s.toneEdge
  | .mem => ∀ a : Nat, t.mem.read a = s.mem.read a
  | .ports => t.keyIn = s.keyIn ∧ t.rndIn = s.rndIn ∧ t.pending = s.pending ∧ t.tick = s.tick ∧
      t.loadClosed = s.loadClosed
  | .locals => t.locals = s.locals

/-- Every part but those in `may` is unchanged. -/
def Frame (may : List Part) (s t : State) : Prop := ∀ p : Part, p ∉ may → p.same s t

/-- Every general register but those `P` names is unchanged. -/
def RegsBut (P : Reg → Prop) (s t : State) : Prop := ∀ r : Reg, ¬ P r → t.reg r = s.reg r

/-- Fault entry in the execute phase, from the state `s` after the fetch (spec/60_exceptions.md R321, R322): the record
with this code and info, the pc and the latch back at their values at the start of the step, nothing else changed. -/
def TrapEntry (code : BitVec 3) (info : Word) (s t : State) : Prop :=
  t.faultCause = code ∧ t.faultPc = s.locals.start ∧ t.faultWord = s.op ∧ t.faultInfo = info ∧
    t.status = 2 ∧ t.toneEdge = false ∧ t.pc = s.locals.start ∧ t.op = s.locals.opBefore ∧
    Frame [.pc, .op, .faultRecord, .status, .tone] s t

/-! ### What the spec lets an instruction write -/

/-- The general registers an instruction may write (spec/10_state.md R30, R31). -/
def writesReg (i : Instr) (r : Reg) : Prop :=
  match i with
  | .cls _ => False
  | .ret _ => False
  | .jp _ => False
  | .call _ => False
  | .seVxKk _ _ => False
  | .sneVxKk _ _ => False
  | .seVxVy _ _ _ => False
  | .ldVxKk x _ => r = x
  | .addVxKk x _ => r = x
  | .ldVxVy x _ => r = x
  | .orVxVy x _ => r = x
  | .andVxVy x _ => r = x
  | .xorVxVy x _ => r = x
  | .addVxVy x _ => r = x ∨ r = 15
  | .subVxVy x _ => r = x ∨ r = 15
  | .shrVx x _ => r = x ∨ r = 15
  | .subnVxVy x _ => r = x ∨ r = 15
  | .shlVx x _ => r = x ∨ r = 15
  | .sneVxVy _ _ _ => False
  | .ldI _ => False
  | .jpV0 _ => False
  | .rnd x _ => r = x
  | .drw _ _ _ => r = 15
  | .skp _ _ => False
  | .sknp _ _ => False
  | .ldVxDt x => r = x
  | .ldVxK x => r = x
  | .ldDtVx _ => False
  | .ldStVx _ => False
  | .addIVx _ => False
  | .ldFVx _ => False
  | .ldBVx _ => False
  | .ldMemVx _ => False
  | .ldVxMem x => r.toNat ≤ x.toNat

/-- How many bytes from I an instruction stores (spec/20_memory.md R79). -/
def storeCount (i : Instr) : Nat :=
  match i with
  | .ldBVx _ => 3
  | .ldMemVx x => x.toNat + 1
  | .cls _ | .ret _ | .jp _ | .call _ | .seVxKk _ _ | .sneVxKk _ _ | .seVxVy _ _ _ | .ldVxKk _ _ | .addVxKk _ _ => 0
  | .ldVxVy _ _ | .orVxVy _ _ | .andVxVy _ _ | .xorVxVy _ _ | .addVxVy _ _ | .subVxVy _ _ | .shrVx _ _ => 0
  | .subnVxVy _ _ | .shlVx _ _ | .sneVxVy _ _ _ | .ldI _ | .jpV0 _ | .rnd _ _ | .drw _ _ _ | .skp _ _ | .sknp _ _ => 0
  | .ldVxDt _ | .ldVxK _ | .ldDtVx _ | .ldStVx _ | .addIVx _ | .ldFVx _ | .ldVxMem _ => 0

/-- Two states that differ at most in stack entries at or above the stack pointer, which "are unobservable by
instructions" (spec/10_state.md R45). -/
def SameButStaleStack (s t : State) : Prop :=
  t = { s with stack := t.stack } ∧ ∀ j : Fin 16, j.val < s.sp.toNat → t.stack[j] = s.stack[j]

/-- The two bytes at the program counter, in memory order (spec/20_memory.md R78). -/
def State.fetchBytes (s : State) : List Byte := [s.mem.read s.pc.toNat, s.mem.read (s.pc.toNat + 1)]

/-- The sprite of DRW Vx,Vy,n has an on bit at column `px`, row `py` of the screen (spec/44_display.md R271, R272, R274):
the pixel lies in the rows and columns the sprite covers from its wrapped start, and its bit is 1. -/
def spriteAt (s : State) (x y : Reg) (n : Nibble) (px : Fin 64) (py : Fin 32) : Prop :=
  let x0 := (s.reg x).toNat % 64
  let y0 := (s.reg y).toNat % 32
  x0 ≤ px.val ∧ px.val < x0 + 8 ∧ y0 ≤ py.val ∧ py.val < y0 + n.toNat ∧
    (s.mem.read (s.i.toNat + (py.val - y0))).getLsbD (7 - (px.val - x0)) = true

end Sys2Proof.Machine
end

