-- ==== Sys2Proof/WellFormed.lean ====
section
/-! DEFINITION. The well-formed instructions: those an assembler writes, whose don't-care bits are the canonical word's
(spec/30_encoding.md R110, R113). Operand ranges need no check: the fields' types are the fields' widths. A word with
other don't-care bits is no error: it decodes to, and runs as, the same instruction (R110). -/

namespace Sys2Proof

/-- The don't-care bits of CLS and RET in their canonical words 00E0 and 00EE (R105). -/
def canonicalClass0 (dc : BitVec 8) : Bool := dc == 0x0E#8

/-- The don't-care bits of SE Vx,Vy, SNE Vx,Vy, SHR and SHL as the assembler writes them: 0 (R113). -/
def canonicalZero (dc : Nibble) : Bool := dc == 0#4

/-- The don't-care bits of SKP in its canonical word Ex9E (R107). -/
def canonicalSkp (dc : Nibble) : Bool := dc == 0x9#4

/-- The don't-care bits of SKNP in its canonical word ExA1 (R107). -/
def canonicalSknp (dc : Nibble) : Bool := dc == 0xA#4

/-- The instruction's word is the canonical word of R104–R108 (DEDUCED for CLS, RET, SKP and SKNP: log entry 9). -/
def Instr.wellFormed : Instr → Bool
  | .cls dc => canonicalClass0 dc
  | .ret dc => canonicalClass0 dc
  | .jp _ => true
  | .call _ => true
  | .seVxKk _ _ => true
  | .sneVxKk _ _ => true
  | .seVxVy _ _ dc => canonicalZero dc
  | .ldVxKk _ _ => true
  | .addVxKk _ _ => true
  | .ldVxVy _ _ => true
  | .orVxVy _ _ => true
  | .andVxVy _ _ => true
  | .xorVxVy _ _ => true
  | .addVxVy _ _ => true
  | .subVxVy _ _ => true
  | .shrVx _ dc => canonicalZero dc
  | .subnVxVy _ _ => true
  | .shlVx _ dc => canonicalZero dc
  | .sneVxVy _ _ dc => canonicalZero dc
  | .ldI _ => true
  | .jpV0 _ => true
  | .rnd _ _ => true
  | .drw _ _ _ => true
  | .skp _ dc => canonicalSkp dc
  | .sknp _ dc => canonicalSknp dc
  | .ldVxDt _ => true
  | .ldVxK _ => true
  | .ldDtVx _ => true
  | .ldStVx _ => true
  | .addIVx _ => true
  | .ldFVx _ => true
  | .ldBVx _ => true
  | .ldMemVx _ => true
  | .ldVxMem _ => true

/-- The same instruction with the don't-care bits of its canonical word (R110, R113). -/
def Instr.canonical : Instr → Instr
  | .cls _ => .cls 0x0E
  | .ret _ => .ret 0x0E
  | .jp nnn => .jp nnn
  | .call nnn => .call nnn
  | .seVxKk x kk => .seVxKk x kk
  | .sneVxKk x kk => .sneVxKk x kk
  | .seVxVy x y _ => .seVxVy x y 0
  | .ldVxKk x kk => .ldVxKk x kk
  | .addVxKk x kk => .addVxKk x kk
  | .ldVxVy x y => .ldVxVy x y
  | .orVxVy x y => .orVxVy x y
  | .andVxVy x y => .andVxVy x y
  | .xorVxVy x y => .xorVxVy x y
  | .addVxVy x y => .addVxVy x y
  | .subVxVy x y => .subVxVy x y
  | .shrVx x _ => .shrVx x 0
  | .subnVxVy x y => .subnVxVy x y
  | .shlVx x _ => .shlVx x 0
  | .sneVxVy x y _ => .sneVxVy x y 0
  | .ldI nnn => .ldI nnn
  | .jpV0 nnn => .jpV0 nnn
  | .rnd x kk => .rnd x kk
  | .drw x y n => .drw x y n
  | .skp x _ => .skp x 0x9
  | .sknp x _ => .sknp x 0xA
  | .ldVxDt x => .ldVxDt x
  | .ldVxK x => .ldVxK x
  | .ldDtVx x => .ldDtVx x
  | .ldStVx x => .ldStVx x
  | .addIVx x => .addIVx x
  | .ldFVx x => .ldFVx x
  | .ldBVx x => .ldBVx x
  | .ldMemVx x => .ldMemVx x
  | .ldVxMem x => .ldVxMem x

end Sys2Proof
end

