-- ==== Sys2Proof/Certificates/Slice0/Obligations.lean ====
section
/-! DEFINITION. The statements for the provers, from the numbered rules of spec/. `exec i s` runs on the state after the
fetch, where `pc` holds the instruction's address plus 2 (spec/40_cycle_and_decode.md R144). `Frame ps s t` says that
every part of the state not in `ps` is unchanged, every byte of memory included. Where a statement formalises the whole rule
of an instruction, its first clause is the rule's encoding line, class and fields as `packXyn`, `packXkk`, `packNnn` and
`packDc0` concatenate them (30_encoding.md R101); the class numbers and keys that the spec itself supplies from general
knowledge (D24) are log entry 8. -/

open Sys2Proof Sys2Proof.Machine

/-! ### ALU and register loads (42_alu.md) -/

/-- R201, R203: LD Vx,kk and LD Vx,Vy complete in every state, write Vx and nothing else. -/
def Obligations.LoadsWriteVxOnly : Prop :=
  ∀ (s : State) (x y : Reg) (kk : Byte),
    (decodeWord (packXkk 0x6 x kk) = .insn (.ldVxKk x kk) ∧ decodeWord (packXyn 0x8 x y 0x0) = .insn (.ldVxVy x y)) ∧
    (∃ t, exec (.ldVxKk x kk) s = .next t ∧ t.reg x = kk ∧ RegsBut (· = x) s t ∧ Frame [.regs] s t) ∧
    (∃ t, exec (.ldVxVy x y) s = .next t ∧ t.reg x = s.reg y ∧ RegsBut (· = x) s t ∧ Frame [.regs] s t)

/-- R202: ADD Vx,kk completes in every state with the sum modulo 256 in Vx, and writes no flag: VF changes only as Vx. -/
def Obligations.AddImmediateWrapsWithoutFlag : Prop :=
  ∀ (s : State) (x : Reg) (kk : Byte),
    decodeWord (packXkk 0x7 x kk) = .insn (.addVxKk x kk) ∧
    ∃ t, exec (.addVxKk x kk) s = .next t ∧ (t.reg x).toNat = ((s.reg x).toNat + kk.toNat) % 256 ∧
      RegsBut (· = x) s t ∧ Frame [.regs] s t

/-- R204, R205, R206: OR, AND and XOR complete in every state, combine Vx and Vy bit by bit into Vx, and write nothing
else; VF is not written as a flag. -/
def Obligations.BitwiseOpsWriteVxOnly : Prop :=
  ∀ (s : State) (x y : Reg),
    (decodeWord (packXyn 0x8 x y 0x1) = .insn (.orVxVy x y) ∧ decodeWord (packXyn 0x8 x y 0x2) = .insn (.andVxVy x y) ∧
      decodeWord (packXyn 0x8 x y 0x3) = .insn (.xorVxVy x y)) ∧
    (∃ t, exec (.orVxVy x y) s = .next t ∧
      (∀ b < 8, (t.reg x).getLsbD b = ((s.reg x).getLsbD b || (s.reg y).getLsbD b)) ∧
      RegsBut (· = x) s t ∧ Frame [.regs] s t) ∧
    (∃ t, exec (.andVxVy x y) s = .next t ∧
      (∀ b < 8, (t.reg x).getLsbD b = ((s.reg x).getLsbD b && (s.reg y).getLsbD b)) ∧
      RegsBut (· = x) s t ∧ Frame [.regs] s t) ∧
    (∃ t, exec (.xorVxVy x y) s = .next t ∧
      (∀ b < 8, (t.reg x).getLsbD b = ((s.reg x).getLsbD b ^^ (s.reg y).getLsbD b)) ∧
      RegsBut (· = x) s t ∧ Frame [.regs] s t)

/-- R207, with flag last: ADD Vx,Vy completes in every state; Vx holds the sum modulo 256 unless Vx is VF, which always
ends as the carry. -/
def Obligations.AddSetsCarry : Prop :=
  ∀ (s : State) (x y : Reg),
    decodeWord (packXyn 0x8 x y 0x4) = .insn (.addVxVy x y) ∧
    ∃ t, exec (.addVxVy x y) s = .next t ∧
      (x ≠ 15 → (t.reg x).toNat = ((s.reg x).toNat + (s.reg y).toNat) % 256) ∧
      (t.reg 15).toNat = (if (s.reg x).toNat + (s.reg y).toNat > 255 then 1 else 0) ∧
      RegsBut (fun r => r = x ∨ r = 15) s t ∧ Frame [.regs] s t

/-- R208, with flag last: SUB Vx,Vy completes in every state; Vx holds the difference modulo 256 unless Vx is VF, which
always ends as 1 exactly when Vx ≥ Vy before. -/
def Obligations.SubSetsNoBorrow : Prop :=
  ∀ (s : State) (x y : Reg),
    decodeWord (packXyn 0x8 x y 0x5) = .insn (.subVxVy x y) ∧
    ∃ t, exec (.subVxVy x y) s = .next t ∧
      (x ≠ 15 → ((t.reg x).toNat : Int) = (((s.reg x).toNat : Int) - ((s.reg y).toNat : Int)) % 256) ∧
      (t.reg 15).toNat = (if (s.reg x).toNat ≥ (s.reg y).toNat then 1 else 0) ∧
      RegsBut (fun r => r = x ∨ r = 15) s t ∧ Frame [.regs] s t

/-- R210, with flag last: SUBN Vx,Vy completes in every state; Vx holds Vy - Vx modulo 256 unless Vx is VF, which always
ends as 1 exactly when Vy ≥ Vx before. -/
def Obligations.SubnSetsNoBorrow : Prop :=
  ∀ (s : State) (x y : Reg),
    decodeWord (packXyn 0x8 x y 0x7) = .insn (.subnVxVy x y) ∧
    ∃ t, exec (.subnVxVy x y) s = .next t ∧
      (x ≠ 15 → ((t.reg x).toNat : Int) = (((s.reg y).toNat : Int) - ((s.reg x).toNat : Int)) % 256) ∧
      (t.reg 15).toNat = (if (s.reg y).toNat ≥ (s.reg x).toNat then 1 else 0) ∧
      RegsBut (fun r => r = x ∨ r = 15) s t ∧ Frame [.regs] s t

/-- R209, R211 with flag last: SHR and SHL complete in every state and shift Vx by one, with the bit shifted out in VF,
last. That they ignore Vy (every don't-care nibble `dc`) is the spec's own decision D12. -/
def Obligations.ShiftsSetBitShiftedOut : Prop :=
  ∀ (s : State) (x : Reg) (dc : Nibble),
    (∃ t, exec (.shrVx x dc) s = .next t ∧ (x ≠ 15 → (t.reg x).toNat = (s.reg x).toNat / 2) ∧
      (t.reg 15).toNat = (s.reg x).toNat % 2 ∧ RegsBut (fun r => r = x ∨ r = 15) s t ∧ Frame [.regs] s t) ∧
    (∃ t, exec (.shlVx x dc) s = .next t ∧ (x ≠ 15 → (t.reg x).toNat = (s.reg x).toNat * 2 % 256) ∧
      (t.reg 15).toNat = (s.reg x).toNat / 128 ∧ RegsBut (fun r => r = x ∨ r = 15) s t ∧ Frame [.regs] s t)

/-- R212: RND completes in every state with the offered byte masked by kk in Vx, and with kk = 0 leaves 0 whatever the
byte. That the byte is an external draw is the spec's own decision D20; here it is the model's field `rndIn` (log entry
1), and the statement holds for every value of it. -/
def Obligations.RndMasksTheOfferedByte : Prop :=
  ∀ (s : State) (x : Reg) (kk : Byte),
    (∃ t, exec (.rnd x kk) s = .next t ∧ (∀ b < 8, (t.reg x).getLsbD b = (s.rndIn.getLsbD b && kk.getLsbD b)) ∧
      RegsBut (· = x) s t ∧ Frame [.regs] s t) ∧
    (∃ t, exec (.rnd x 0) s = .next t ∧ t.reg x = 0)

/-! ### Control flow (41_control_flow.md) -/

/-- R173: JP nnn completes in every state with exactly nnn in pc, and nothing else changed. -/
def Obligations.JpLoadsPc : Prop :=
  ∀ (s : State) (nnn : Addr12), ∃ t, exec (.jp nnn) s = .next t ∧ t.pc.toNat = nnn.toNat ∧ Frame [.pc] s t

/-- R179: JP V0,nnn completes in every state with nnn + V0 in pc, not truncated to 12 bits, and nothing else changed. -/
def Obligations.JpV0AddsWithoutTruncation : Prop :=
  ∀ (s : State) (nnn : Addr12),
    ∃ t, exec (.jpV0 nnn) s = .next t ∧ t.pc.toNat = nnn.toNat + (s.reg 0).toNat ∧ Frame [.pc] s t

/-- R175, R176: SE Vx,kk and SNE Vx,kk complete in every state, skip (pc + 2 more) exactly on their condition, and change
pc alone. -/
def Obligations.SkipOnImmediate : Prop :=
  ∀ (s : State) (x : Reg) (kk : Byte),
    (decodeWord (packXkk 0x3 x kk) = .insn (.seVxKk x kk) ∧ decodeWord (packXkk 0x4 x kk) = .insn (.sneVxKk x kk)) ∧
    (∃ t, exec (.seVxKk x kk) s = .next t ∧ t.pc = (if s.reg x = kk then s.pc + 2 else s.pc) ∧ Frame [.pc] s t) ∧
    (∃ t, exec (.sneVxKk x kk) s = .next t ∧ t.pc = (if s.reg x ≠ kk then s.pc + 2 else s.pc) ∧ Frame [.pc] s t)

/-- R177, R178: SE Vx,Vy and SNE Vx,Vy complete in every state for every don't-care nibble, skip exactly on their
condition, and change pc alone. -/
def Obligations.SkipOnRegister : Prop :=
  ∀ (s : State) (x y : Reg) (dc : Nibble),
    (decodeWord (packXyn 0x5 x y dc) = .insn (.seVxVy x y dc) ∧ decodeWord (packXyn 0x9 x y dc) = .insn (.sneVxVy x y dc)) ∧
    (∃ t, exec (.seVxVy x y dc) s = .next t ∧ t.pc = (if s.reg x = s.reg y then s.pc + 2 else s.pc) ∧ Frame [.pc] s t) ∧
    (∃ t, exec (.sneVxVy x y dc) s = .next t ∧ t.pc = (if s.reg x ≠ s.reg y then s.pc + 2 else s.pc) ∧ Frame [.pc] s t)

/-- CALL with a free entry completes: it stores the address after it at the stack pointer's entry, increments the pointer
and jumps; no other entry changes. -/
def Obligations.CallPushesAndJumps : Prop :=
  ∀ (s : State) (nnn : Addr12), s.sp.toNat < 16 →
    ∃ t, exec (.call nnn) s = .next t ∧ t.pc.toNat = nnn.toNat ∧ t.sp.toNat = s.sp.toNat + 1 ∧
      (∀ j : Fin 16, t.stack[j] = if j.val = s.sp.toNat then s.pc else s.stack[j]) ∧ Frame [.pc, .sp, .stack] s t

/-- RET with an entry in use completes: it decrements the pointer and takes the pc from the entry there, as is; no entry
changes (the stale value stays). -/
def Obligations.RetPopsPc : Prop :=
  ∀ (s : State) (dc : BitVec 8) (j : Fin 16), s.sp.toNat = j.val + 1 →
    ∃ t, exec (.ret dc) s = .next t ∧ t.pc = s.stack[j] ∧ t.sp.toNat = j.val ∧ Frame [.pc, .sp] s t

/-- CALL with 16 entries in use raises STACK_OVERFLOW (code 2, info 16) and RET with none raises STACK_UNDERFLOW (code 3,
info 0); the fault, its codes and its entry are the spec's own decisions D6, D8, D9. -/
def Obligations.StackLimitsTrap : Prop :=
  ∀ (s : State) (nnn : Addr12) (dc : BitVec 8),
    (s.sp = 16 → ∃ t, exec (.call nnn) s = .next t ∧ TrapEntry 2 16 s t) ∧
    (s.sp = 0 → ∃ t, exec (.ret dc) s = .next t ∧ TrapEntry 3 0 s t)

/-- MODEL's choice (log entry 5): in a state whose stack pointer is above 16, which the spec says is never held, CALL and
RET stop the model by name, and no other instruction stops. -/
def Obligations.OnlyImpossibleStackPointerStops : Prop :=
  ∀ (s : State) (i : Instr),
    (exec i s = .fault .stackPointerRange ↔ 16 < s.sp.toNat ∧ ((∃ nnn, i = .call nnn) ∨ ∃ dc, i = .ret dc)) ∧
    ∀ r, exec i s ≠ .refused r

/-- R182: a RET that pops the entry a CALL pushed (the stack pointer and that entry as the CALL left them, everything else
arbitrary) continues at the address after the CALL with the stack pointer as before it. -/
def Obligations.CallThenRetReturns : Prop :=
  ∀ (s t u : State) (nnn : Addr12) (dc : BitVec 8) (j : Fin 16), s.sp.toNat = j.val →
    exec (.call nnn) s = .next t → u.sp = t.sp → u.stack[j] = t.stack[j] →
    ∃ w, exec (.ret dc) u = .next w ∧ w.pc = s.pc ∧ w.sp = s.sp

/-! ### Index register and memory transfers (43_index_memory.md) -/

/-- R240: LD I,nnn completes in every state with nnn in I, and nothing else changed. -/
def Obligations.LdILoadsIndex : Prop :=
  ∀ (s : State) (nnn : Addr12), decodeWord (packNnn 0xA nnn) = .insn (.ldI nnn) ∧
    ∃ t, exec (.ldI nnn) s = .next t ∧ t.i.toNat = nnn.toNat ∧ Frame [.index] s t

/-- R241: ADD I,Vx completes in every state with I + Vx modulo 2^16 in I (not modulo 2^12, and no fault); VF and everything
else is unchanged. -/
def Obligations.AddIWrapsAtSixteenBits : Prop :=
  ∀ (s : State) (x : Reg),
    ∃ t, exec (.addIVx x) s = .next t ∧ t.i.toNat = (s.i.toNat + (s.reg x).toNat) % 65536 ∧ Frame [.index] s t

/-- LD F,Vx with a digit completes with I at that digit's glyph, 0x050 + 5·digit; the digit order is general knowledge in
the spec (D25, log entry 8). -/
def Obligations.LdFPointsAtGlyph : Prop :=
  ∀ (s : State) (x : Reg), (s.reg x).toNat ≤ 0xF →
    ∃ t, exec (.ldFVx x) s = .next t ∧ t.i.toNat = 0x050 + 5 * (s.reg x).toNat ∧ Frame [.index] s t

/-- LD B,Vx whose three bytes lie in memory completes: the hundreds, tens and units digits of Vx at I, I+1 and I+2, every
other byte unchanged, I unchanged. -/
def Obligations.LdBStoresDecimalDigits : Prop :=
  ∀ (s : State) (x : Reg), s.i.toNat + 2 ≤ 0xFFF →
    ∃ t, exec (.ldBVx x) s = .next t ∧
      (t.mem.read s.i.toNat).toNat = (s.reg x).toNat / 100 ∧
      (t.mem.read (s.i.toNat + 1)).toNat = (s.reg x).toNat / 10 % 10 ∧
      (t.mem.read (s.i.toNat + 2)).toNat = (s.reg x).toNat % 10 ∧
      (∀ a, ¬ (s.i.toNat ≤ a ∧ a < s.i.toNat + 3) → t.mem.read a = s.mem.read a) ∧ Frame [.mem] s t

/-- LD [I],Vx whose bytes lie in memory completes: Vk at I + k for every k ≤ x, every other byte unchanged; that I is
unchanged is the spec's own decision D13. -/
def Obligations.StoreBlockWritesRegisters : Prop :=
  ∀ (s : State) (x : Reg), s.i.toNat + x.toNat ≤ 0xFFF →
    ∃ t, exec (.ldMemVx x) s = .next t ∧
      (∀ k : Reg, k.toNat ≤ x.toNat → t.mem.read (s.i.toNat + k.toNat) = s.reg k) ∧
      (∀ a, ¬ (s.i.toNat ≤ a ∧ a < s.i.toNat + (x.toNat + 1)) → t.mem.read a = s.mem.read a) ∧ Frame [.mem] s t

/-- LD Vx,[I] whose bytes lie in memory completes: the byte at I + k in Vk for every k ≤ x, every register above x
unchanged; that I is unchanged is the spec's own decision D13. -/
def Obligations.LoadBlockReadsRegisters : Prop :=
  ∀ (s : State) (x : Reg), s.i.toNat + x.toNat ≤ 0xFFF →
    ∃ t, exec (.ldVxMem x) s = .next t ∧
      (∀ k : Reg, k.toNat ≤ x.toNat → t.reg k = s.mem.read (s.i.toNat + k.toNat)) ∧
      RegsBut (fun r => r.toNat ≤ x.toNat) s t ∧ Frame [.regs] s t

/-- The four instructions that access memory through I raise MEM_RANGE (code 4) exactly as CheckRange says, with the lowest
address outside memory as the info and no byte, register or pixel changed; the fault is the spec's own decision D7. -/
def Obligations.MemRangeTraps : Prop :=
  ∀ (s : State) (x y : Reg) (n : Nibble),
    (0 < n.toNat → 0xFFF < s.i.toNat + n.toNat - 1 →
      ∃ t, exec (.drw x y n) s = .next t ∧ TrapEntry 4 (BitVec.ofNat 16 (max s.i.toNat 0x1000)) s t) ∧
    (0xFFF < s.i.toNat + 2 →
      ∃ t, exec (.ldBVx x) s = .next t ∧ TrapEntry 4 (BitVec.ofNat 16 (max s.i.toNat 0x1000)) s t) ∧
    (0xFFF < s.i.toNat + x.toNat →
      (∃ t, exec (.ldMemVx x) s = .next t ∧ TrapEntry 4 (BitVec.ofNat 16 (max s.i.toNat 0x1000)) s t) ∧
      (∃ t, exec (.ldVxMem x) s = .next t ∧ TrapEntry 4 (BitVec.ofNat 16 (max s.i.toNat 0x1000)) s t))

/-! ### Display (44_display.md) -/

/-- R270: CLS completes in every state, for every don't-care byte, with every pixel off and nothing else changed. -/
def Obligations.ClsClearsEveryPixel : Prop :=
  ∀ (s : State) (dc : BitVec 8),
    decodeWord (packDc0 dc 0x0) = .insn (.cls dc) ∧
    ∃ t, exec (.cls dc) s = .next t ∧ (∀ px py, t.fb.pixel px py = false) ∧ Frame [.fb] s t

/-- DRW whose sprite bytes lie in memory completes: every pixel the sprite's on bits cover is toggled, every other pixel
is unchanged, and VF is 1 exactly when a covered pixel was on; the start wraps, the rest is clipped, bit 7 is leftmost
(the spec's own decisions D18, D19; log entry 8). With n = 0 nothing is read and nothing drawn (D17). -/
def Obligations.DrwXorsSpriteAndReportsCollision : Prop :=
  ∀ (s : State) (x y : Reg) (n : Nibble), s.i.toNat + n.toNat ≤ 0x1000 ∨ n = 0 →
    ∃ t, exec (.drw x y n) s = .next t ∧
      (∀ px py, (spriteAt s x y n px py → t.fb.pixel px py = !(s.fb.pixel px py)) ∧
        (¬ spriteAt s x y n px py → t.fb.pixel px py = s.fb.pixel px py)) ∧
      ((∃ px py, spriteAt s x y n px py ∧ s.fb.pixel px py = true) → t.reg 15 = 1) ∧
      ((¬ ∃ px py, spriteAt s x y n px py ∧ s.fb.pixel px py = true) → t.reg 15 = 0) ∧
      RegsBut (· = 15) s t ∧ Frame [.regs, .fb] s t

/-- R276: the same DRW twice, with neither coordinate in VF, returns every pixel to its state before the first draw, and
the second draw's VF is 1 exactly when a pixel the sprite covers was on after the first. -/
def Obligations.DrawingTwiceErases : Prop :=
  ∀ (s t u : State) (x y : Reg) (n : Nibble), x ≠ 15 → y ≠ 15 → s.i.toNat + n.toNat ≤ 0x1000 ∨ n = 0 →
    exec (.drw x y n) s = .next t → exec (.drw x y n) t = .next u →
    (∀ px py, u.fb.pixel px py = s.fb.pixel px py) ∧
      (u.reg 15 = 1 ↔ ∃ px py, spriteAt s x y n px py ∧ t.fb.pixel px py = true)

/-! ### Keypad and timers (45_keypad_timer_ops.md) -/

/-- SKP and SKNP with a key number complete for every don't-care nibble, skip exactly when the key is pressed (SKP) or not
pressed (SKNP) in the step's snapshot, and change pc alone. -/
def Obligations.KeySkipsTestTheSnapshot : Prop :=
  ∀ (s : State) (x : Reg) (dc : Nibble), (s.reg x).toNat ≤ 0xF →
    (∃ t, exec (.skp x dc) s = .next t ∧
      t.pc = (if s.key.getLsbD (s.reg x).toNat then s.pc + 2 else s.pc) ∧ Frame [.pc] s t) ∧
    (∃ t, exec (.sknp x dc) s = .next t ∧
      t.pc = (if s.key.getLsbD (s.reg x).toNat then s.pc else s.pc + 2) ∧ Frame [.pc] s t)

/-- SKP and SKNP with Vx above 0xF raise KEY_RANGE (code 5), LD F,Vx raises FONT_RANGE (code 6), with Vx as the info and
nothing else done; the faults are the spec's own decisions D15, D16. -/
def Obligations.IndexAboveFTraps : Prop :=
  ∀ (s : State) (x : Reg) (dc : Nibble), 0xF < (s.reg x).toNat →
    (∃ t, exec (.skp x dc) s = .next t ∧ TrapEntry 5 (BitVec.ofNat 16 (s.reg x).toNat) s t) ∧
    (∃ t, exec (.sknp x dc) s = .next t ∧ TrapEntry 5 (BitVec.ofNat 16 (s.reg x).toNat) s t) ∧
    (∃ t, exec (.ldFVx x) s = .next t ∧ TrapEntry 6 (BitVec.ofNat 16 (s.reg x).toNat) s t)

/-- LD Vx,DT, LD DT,Vx and LD ST,Vx complete in every state and copy between Vx and the timer, before the timer phase;
nothing else changes. -/
def Obligations.TimerLoadsCopy : Prop :=
  ∀ (s : State) (x : Reg),
    (∃ t, exec (.ldVxDt x) s = .next t ∧ t.reg x = s.dt ∧ RegsBut (· = x) s t ∧ Frame [.regs] s t) ∧
    (∃ t, exec (.ldDtVx x) s = .next t ∧ t.dt = s.reg x ∧ Frame [.dt] s t) ∧
    (∃ t, exec (.ldStVx x) s = .next t ∧ t.st = s.reg x ∧ Frame [.st] s t)

/-- LD Vx,K completes on a pressed key with the least pressed key's number in Vx; the level reading and the lowest key are
the spec's own decision D14. -/
def Obligations.KeyWaitStoresLeastKey : Prop :=
  ∀ (s : State) (x : Reg) (k : Fin 16), s.key.getLsbD k.val = true → (∀ j, j < k.val → s.key.getLsbD j = false) →
    ∃ t, exec (.ldVxK x) s = .next t ∧ (t.reg x).toNat = k.val ∧ RegsBut (· = x) s t ∧ Frame [.regs] s t

/-- A step that executes LD Vx,K with no key driven leaves pc at the instruction, reports BLOCKED_ON_KEY, still counts the
timers down, and changes no register, memory, stack or pixel (D14). The snapshot, the ports and the step locals are outside
the frame (log entries 1, 2, 3, 11). -/
def Obligations.KeyWaitBlocksTheStep : Prop :=
  ∀ (s : State) (x : Reg), s.faultCause = 0 → s.pc.toNat + 1 ≤ 0xFFF → s.keyIn = 0 →
    decode s.fetchBytes = .insn (.ldVxK x) [] →
    ∃ t, step s = .next t ∧ t.pc = s.pc ∧ t.status = 1 ∧ t.dt.toNat = s.dt.toNat - 1 ∧ t.st.toNat = s.st.toNat - 1 ∧
      Frame [.op, .dt, .st, .tone, .status, .key, .ports, .locals] s t

/-! ### The step (40_cycle_and_decode.md, 60_exceptions.md) -/

/-- When the bytes at pc decode to an instruction, a step of a block that is not faulted is `exec` of it on the state with
the keypad sampled, the word latched and pc advanced by 2, and then the end of the step; and what that state is. -/
def Obligations.StepRunsTheDecodedInstruction : Prop :=
  ∀ (s : State) (i : Instr), s.faultCause = 0 → s.pc.toNat + 1 ≤ 0xFFF → decode s.fetchBytes = .insn i [] →
    step s = Result.map State.finish (exec i s.begin.fetched) ∧
    s.begin.fetched.pc = s.pc + 2 ∧ s.begin.fetched.key = s.keyIn ∧
    s.begin.fetched.op = wordOfBytes (s.mem.read s.pc.toNat) (s.mem.read (s.pc.toNat + 1)) ∧
    s.begin.fetched.locals = { start := s.pc, opBefore := s.op, blocked := false } ∧
    Frame [.pc, .key, .op, .locals] s s.begin.fetched

/-- The end of a step: after a step that did not fault the timer phase and the status write, after one that did neither;
the locals go idle, the host's ports take their next values and the load port is closed (MODEL, log entries 1, 3, 11). -/
def Obligations.EndOfStepRunsTimersAndStatus : Prop :=
  ∀ u : State,
    (u.faultCause = 0 →
      u.finish.dt.toNat = u.dt.toNat - 1 ∧ u.finish.st.toNat = u.st.toNat - 1 ∧
      (u.finish.toneEdge = true ↔ u.st = 1) ∧ u.finish.status = (if u.locals.blocked then 1 else 0) ∧
      Frame [.dt, .st, .tone, .status, .ports, .locals] u u.finish) ∧
    (u.faultCause ≠ 0 → Frame [.ports, .locals] u u.finish) ∧
    u.finish.locals = StepLocals.idle ∧ u.finish.loadClosed = true ∧
    (∀ h rest, u.pending = h :: rest →
      u.finish.keyIn = h.keys ∧ u.finish.rndIn = h.rnd ∧ u.finish.pending = rest ∧ u.finish.tick = u.tick) ∧
    (u.pending = [] →
      u.finish.keyIn = Config.hostKeys u.tick ∧ u.finish.rndIn = Config.hostRnd u.tick ∧ u.finish.pending = [] ∧
        u.finish.tick = u.tick + 1)

/-- A step on a decode miss latches the word, advances pc by 2, runs the timer phase, reports OK, and leaves every other
piece of the block's state unchanged (R150). That the snapshot `key` is no such piece and holds the levels driven is the
model's reading (R143, R48; log entry 2), and so are the ports and locals outside the frame (log entries 1, 3, 11). -/
def Obligations.DecodeMissIsNoOp : Prop :=
  ∀ (s : State) (m : Miss), s.faultCause = 0 → s.pc.toNat + 1 ≤ 0xFFF → decode s.fetchBytes = .miss m [] →
    ∃ t, step s = .next t ∧ t.op = wordOfBytes (s.mem.read s.pc.toNat) (s.mem.read (s.pc.toNat + 1)) ∧
      t.pc = s.pc + 2 ∧ t.dt.toNat = s.dt.toNat - 1 ∧ t.st.toNat = s.st.toNat - 1 ∧
      (t.toneEdge = true ↔ s.st = 1) ∧ t.status = 0 ∧ t.key = s.keyIn ∧
      Frame [.op, .pc, .dt, .st, .tone, .status, .key, .ports, .locals] s t

/-- R337: every completed step counts each timer down by exactly 1, clamped at 0, from its value after the instruction, and
`tone_edge` is 1 exactly when that took ST from 1 to 0. LD DT,Vx and LD ST,Vx alone set the value counted from. -/
def Obligations.TimersCountOncePerStep : Prop :=
  ∀ s t : State, s.faultCause = 0 → step s = .next t → t.faultCause = 0 →
    ((∀ x, decode s.fetchBytes ≠ .insn (.ldDtVx x) []) → t.dt.toNat = s.dt.toNat - 1) ∧
    (∀ x, decode s.fetchBytes = .insn (.ldDtVx x) [] → t.dt.toNat = (s.reg x).toNat - 1) ∧
    ((∀ x, decode s.fetchBytes ≠ .insn (.ldStVx x) []) →
      t.st.toNat = s.st.toNat - 1 ∧ (t.toneEdge = true ↔ s.st.toNat = 1)) ∧
    (∀ x, decode s.fetchBytes = .insn (.ldStVx x) [] →
      t.st.toNat = (s.reg x).toNat - 1 ∧ (t.toneEdge = true ↔ (s.reg x).toNat = 1))

/-- The status after a step that did not fault: BLOCKED_ON_KEY exactly when it executed LD Vx,K with no key driven, OK
otherwise; the status register is the spec's own decision D10. -/
def Obligations.StatusReportsKeyWait : Prop :=
  ∀ s t : State, s.faultCause = 0 → step s = .next t → t.faultCause = 0 →
    ((∃ x, decode s.fetchBytes = .insn (.ldVxK x) []) ∧ s.keyIn = 0 → t.status = 1) ∧
    (¬ ((∃ x, decode s.fetchBytes = .insn (.ldVxK x) []) ∧ s.keyIn = 0) → t.status = 0)

/-- A fetch that would read above 0xFFF raises FETCH_RANGE (code 1): the word recorded is 0, the info the first address
outside memory, and nothing but the record, the status and the tone changes; the spec's own decisions D4, D8. (The
snapshot is taken before the fetch: log entry 2; the host's ports and the step locals: log entries 1, 3, 11.) -/
def Obligations.FetchOutsideMemoryTraps : Prop :=
  ∀ s : State, s.faultCause = 0 → 0xFFF < s.pc.toNat + 1 →
    ∃ t, step s = .next t ∧ t.faultCause = 1 ∧ t.faultPc = s.pc ∧ t.faultWord = 0 ∧
      t.faultInfo.toNat = max s.pc.toNat 0x1000 ∧ t.status = 2 ∧ t.toneEdge = false ∧
      Frame [.faultRecord, .status, .tone, .key, .ports, .locals] s t

/-- A step that faults leaves every register, timer, pixel, stack entry and memory byte, pc, sp, I and the latch as at its
start, and the record names the step's pc, its word (0 for FETCH_RANGE) and a cause of R320; precision is the spec's own
decision D8. The keypad snapshot (R39) is outside the frame: that it is taken before the fetch and kept on a fault is the
model's reading (log entry 2). So are the host's ports and the step locals, the model's own (log entries 1, 3, 11). -/
def Obligations.FaultsArePrecise : Prop :=
  ∀ s t : State, s.faultCause = 0 → step s = .next t → t.faultCause ≠ 0 →
    Frame [.faultRecord, .status, .tone, .key, .ports, .locals] s t ∧
    t.faultPc = s.pc ∧ t.status = 2 ∧ t.toneEdge = false ∧ t.faultCause.toNat ≤ 6 ∧
    (t.faultCause = 1 → t.faultWord = 0) ∧
    (t.faultCause ≠ 1 → t.faultWord = wordOfBytes (s.mem.read s.pc.toNat) (s.mem.read (s.pc.toNat + 1)))

/-- A step requested of a faulted block completes and changes nothing but `status` (FAULTED) and `tone_edge` (0), the timers
included; the spec's own decision D8. The host's ports and the step locals, the model's own, are outside the frame (log
entries 1, 3, 11). -/
def Obligations.FaultedStepIsInert : Prop :=
  ∀ s : State, s.faultCause ≠ 0 →
    ∃ t, step s = .next t ∧ t.status = 2 ∧ t.toneEdge = false ∧ Frame [.status, .tone, .ports, .locals] s t

/-- Any number of steps of a faulted block leave its fault record and all its state as they are (R323, R324): only reset
leaves the faulted condition. The host's ports and the step locals are outside the frame (log entries 1, 3, 11). -/
def Obligations.FaultRecordStandsForever : Prop :=
  ∀ (k : Nat) (s : State), s.faultCause ≠ 0 →
    ∃ t : State, Host.Core.run Sys2Proof.core k s = .next t ∧ Frame [.status, .tone, .ports, .locals] s t

/-! ### Invariants -/

/-- The state after reset is legal. -/
def Obligations.ResetIsLegal : Prop := State.reset.Inv

/-- Every step keeps the state legal: memory canonical, sp at most 16, the cause code at most 6, the status never 3 and
FAULTED exactly while a fault is recorded, no tone while faulted, idle locals (MODEL, log entry 3). -/
def Obligations.StepKeepsStateLegal : Prop := ∀ s t : State, s.Inv → step s = .next t → t.Inv

/-- The bounds of R181 hold after reset: pc is 0x200 from the source, and the stack entries are 0 by the spec's own decision
D11 (R48), which the model takes without its parameter (log entry 7). -/
def Obligations.ResetPcBounded : Prop := State.reset.PcBounded

/-- R181: pc never exceeds 0x10FE and no stacked address exceeds 0x1000, so the 16-bit truncations are never observable:
every step keeps these bounds. -/
def Obligations.StepKeepsPcBounded : Prop := ∀ s t : State, s.PcBounded → step s = .next t → t.PcBounded

/-- With a stack pointer of at most 16 every step answers a next state, whatever the word at pc. The next state may be one
that has recorded a fault: that faults are next states is the model's reading (log entry 4), and that it stops above 16 is
its choice (log entry 5). -/
def Obligations.LegalStatesAlwaysStep : Prop := ∀ s : State, s.sp.toNat ≤ 16 → ∃ t, step s = .next t

/-! ### Whole-machine rules -/

/-- No instruction writes a general register but those R30 and R31 give it: Vx, VF as a flag of the six flag writers, and
V0..Vx of LD Vx,[I]. -/
def Obligations.RegistersWrittenAsListed : Prop :=
  ∀ (i : Instr) (s t : State) (r : Reg), exec i s = .next t → ¬ writesReg i r → t.reg r = s.reg r

/-- Only LD B,Vx and LD [I],Vx change memory, and only in the 3 or x + 1 bytes from I. -/
def Obligations.StoresStayInTheirBytes : Prop :=
  ∀ (i : Instr) (s t : State) (a : Nat), exec i s = .next t →
    ¬ (s.i.toNat ≤ a ∧ a < s.i.toNat + storeCount i) → t.mem.read a = s.mem.read a

/-- I, DT, ST, the framebuffer and the stack are written only by the instructions the spec names for each, and no
instruction writes the keypad snapshot. -/
def Obligations.SpecialStateWrittenAsListed : Prop :=
  ∀ (i : Instr) (s t : State), exec i s = .next t →
    ((∀ nnn, i ≠ .ldI nnn) → (∀ x, i ≠ .addIVx x) → (∀ x, i ≠ .ldFVx x) → t.i = s.i) ∧
    ((∀ x, i ≠ .ldDtVx x) → t.dt = s.dt) ∧
    ((∀ x, i ≠ .ldStVx x) → t.st = s.st) ∧
    ((∀ dc, i ≠ .cls dc) → (∀ x y n, i ≠ .drw x y n) → ∀ px py, t.fb.pixel px py = s.fb.pixel px py) ∧
    ((∀ nnn, i ≠ .call nnn) → (∀ dc, i ≠ .ret dc) → t.sp = s.sp ∧ t.stack = s.stack) ∧
    t.key = s.key

/-- Only RND uses `rnd_in`: another offered byte changes nothing another instruction does (R348). -/
def Obligations.OnlyRndReadsTheOfferedByte : Prop :=
  ∀ (i : Instr) (s : State) (b : Byte), (∀ x kk, i ≠ .rnd x kk) →
    exec i { s with rndIn := b } = Result.map (fun t => { t with rndIn := b }) (exec i s)

/-- Only SKP, SKNP and LD Vx,K read the keypad snapshot: another snapshot changes nothing another instruction does (R39). -/
def Obligations.OnlyKeyInstructionsReadKeys : Prop :=
  ∀ (i : Instr) (s : State) (ks : BitVec 16), (∀ x dc, i ≠ .skp x dc) → (∀ x dc, i ≠ .sknp x dc) → (∀ x, i ≠ .ldVxK x) →
    exec i { s with key := ks } = Result.map (fun t => { t with key := ks }) (exec i s)

/-- Stack entries at or above the stack pointer are unobservable: states that differ only there stay so under every
instruction (R45). -/
def Obligations.StaleStackUnobservable : Prop :=
  ∀ (i : Instr) (s s' t t' : State), SameButStaleStack s s' → exec i s = .next t → exec i s' = .next t' →
    SameButStaleStack t t'

/-! ### Encoding (30_encoding.md) -/

/-- Decoding an encoded instruction gives it back, with every operand and don't-care bit at every value, on words and on
bytes with anything after them. -/
def Obligations.DecodeOfEncode : Prop :=
  ∀ (i : Instr) (rest : List Byte), decodeWord (encode i) = .insn i ∧ decode (encodeBytes i ++ rest) = .insn i rest

/-- Encoding what a word decodes to gives the word back: decoding drops no bit of a word. That words which differ only in
don't-care bits give different terms of `Instr`, where the spec calls them the same instruction (R110), is the model's
choice: it keeps those bits as the argument `dc`, which no meaning reads (log entry 9). -/
def Obligations.EncodeOfDecode : Prop := ∀ (w : Word) (i : Instr), decodeWord w = .insn i → encode i = w

/-- R109: the decode misses are exactly the words whose secondary key has no entry; every other word is an instruction. -/
def Obligations.MissesAreExactlyTheUnlistedKeys : Prop :=
  ∀ w : Word, (∃ m, decodeWord w = .miss m) ↔
    (w.toNat / 4096 = 0x0 ∧ w.toNat % 16 ≠ 0x0 ∧ w.toNat % 16 ≠ 0xE) ∨
    (w.toNat / 4096 = 0x8 ∧ ((0x8 ≤ w.toNat % 16 ∧ w.toNat % 16 ≤ 0xD) ∨ w.toNat % 16 = 0xF)) ∨
    (w.toNat / 4096 = 0xE ∧ w.toNat % 16 ≠ 0x1 ∧ w.toNat % 16 ≠ 0xE) ∨
    (w.toNat / 4096 = 0xF ∧ w.toNat % 256 ∉ [0x07, 0x0A, 0x15, 0x18, 0x1E, 0x29, 0x33, 0x55, 0x65])

/-- The words the source itself gives decode as it names them: 0x00E0 CLS, 0x1300 JP 0x300, 0x8354 ADD V3,V5, 0xC300
RND V3,0x00 (30_encoding.md §2, "Provenance of the class numbers"). -/
def Obligations.SourceWordsDecode : Prop :=
  decode [0x00, 0xE0] = .insn (.cls 0x0E) [] ∧ decode [0x13, 0x00] = .insn (.jp 0x300) [] ∧
  decode [0x83, 0x54] = .insn (.addVxVy 3 5) [] ∧ decode [0xC3, 0x00] = .insn (.rnd 3 0x00) []

/-- R110: an instruction's don't-care bits have no effect: it runs as the one with the canonical word, which is well
formed. -/
def Obligations.DontCareBitsHaveNoEffect : Prop :=
  ∀ (i : Instr) (s : State), exec i s = exec i.canonical s ∧ i.canonical.wellFormed = true

/-! ### Host (70_reset_and_hazards.md) -/

/-- Reset puts every piece of the block's state at its value of R48, from any state, a faulted one included: pc 0x200 and
sp 0 from the source, the zeros by the spec's own decision D11, the 80 font bytes of R73 by D25 (log entries 7, 8). That
what the host drives stays as it is, and that the load port is open again, is the model's choice (log entries 1, 11). -/
def Obligations.ResetReconstructs : Prop :=
  let font : List Byte :=
    [0xF0, 0x90, 0x90, 0x90, 0xF0, 0x20, 0x60, 0x20, 0x20, 0x70, 0xF0, 0x10, 0xF0, 0x80, 0xF0, 0xF0, 0x10, 0xF0, 0x10, 0xF0] ++
    [0x90, 0x90, 0xF0, 0x10, 0x10, 0xF0, 0x80, 0xF0, 0x10, 0xF0, 0xF0, 0x80, 0xF0, 0x90, 0xF0, 0xF0, 0x10, 0x20, 0x40, 0x40] ++
    [0xF0, 0x90, 0xF0, 0x90, 0xF0, 0xF0, 0x90, 0xF0, 0x10, 0xF0, 0xF0, 0x90, 0xF0, 0x90, 0x90, 0xE0, 0x90, 0xE0, 0x90, 0xE0] ++
    [0xF0, 0x80, 0x80, 0x80, 0xF0, 0xE0, 0x90, 0x90, 0x90, 0xE0, 0xF0, 0x80, 0xF0, 0x80, 0xF0, 0xF0, 0x80, 0xF0, 0x80, 0x80]
  ∀ s : State,
    s.rst.pc = 0x200 ∧ s.rst.sp = 0 ∧ (∀ r, s.rst.reg r = 0) ∧ s.rst.i = 0 ∧ (∀ j : Fin 16, s.rst.stack[j] = 0) ∧
    s.rst.dt = 0 ∧ s.rst.st = 0 ∧ (∀ px py, s.rst.fb.pixel px py = false) ∧ s.rst.op = 0 ∧ s.rst.faultCause = 0 ∧
    s.rst.faultPc = 0 ∧ s.rst.faultWord = 0 ∧ s.rst.faultInfo = 0 ∧ s.rst.status = 0 ∧ s.rst.toneEdge = false ∧
    (∀ a, s.rst.mem.read a = if 0x050 ≤ a ∧ a ≤ 0x09F then font.getD (a - 0x050) 0 else 0) ∧
    s.rst.keyIn = s.keyIn ∧ s.rst.rndIn = s.rndIn ∧ s.rst.pending = s.pending ∧ s.rst.tick = s.tick ∧
    s.rst.loadClosed = false

/-- The ROM load between reset and the first step puts byte k of the ROM at 0x200 + k and changes nothing else; a ROM of
more than 3584 bytes is rejected (the spec's own decision D23). That the load port is open until a step is requested is the
model's field `loadClosed` (log entry 11). -/
def Obligations.RomLoadCopiesVerbatim : Prop :=
  ∀ (s : State) (rom : List Byte), s.loadClosed = false →
    (3584 < rom.length → s.loadRom rom = none) ∧
    (rom.length ≤ 3584 → ∃ t, s.loadRom rom = some t ∧
      (∀ k, k < rom.length → t.mem.read (0x200 + k) = rom.getD k 0) ∧
      (∀ a, ¬ (0x200 ≤ a ∧ a < 0x200 + rom.length) → t.mem.read a = s.mem.read a) ∧ Frame [.mem] s t)

/-- The host writes memory only before the first step: once a step has answered, a load and every load-port write are no
move of the host, through any number of further steps, until reset (the spec's own decision D31; the model's field
`loadClosed`, log entry 11). -/
def Obligations.LoadOnlyBeforeFirstStep : Prop :=
  ∀ (k : Nat) (s t : State), Host.Core.run Sys2Proof.core (k + 1) s = .next t →
    (∀ rom, t.loadRom rom = none) ∧ (∀ addr data, t.loadPort addr data = none)
end

