-- ==== Sys2Proof/Laws/Decode.lean ====
section
/-! SUPPORT. Words as numbers: what each packing and each field is as a number, so that reading a packed word back, and
rebuilding a word from its fields, is linear arithmetic. -/

namespace Sys2Proof

/-! ### Packings as numbers -/

theorem toNat_append_eq {a b : Nat} (x : BitVec a) (y : BitVec b) : (x ++ y).toNat = x.toNat * 2 ^ b + y.toNat := by
  rw [BitVec.toNat_append, ← Nat.shiftLeft_add_eq_or_of_lt y.isLt, Nat.shiftLeft_eq]

theorem toNat_packXyn (c x y n : Nibble) :
    (packXyn c x y n).toNat = c.toNat * 4096 + x.toNat * 256 + y.toNat * 16 + n.toNat := by
  have h : (packXyn c x y n).toNat = ((c ++ x) ++ y ++ n).toNat := rfl
  rw [h, toNat_append_eq, toNat_append_eq, toNat_append_eq]; omega

theorem toNat_packXkk (c x : Nibble) (kk : Byte) :
    (packXkk c x kk).toNat = c.toNat * 4096 + x.toNat * 256 + kk.toNat := by
  have h : (packXkk c x kk).toNat = ((c ++ x) ++ kk).toNat := rfl
  rw [h, toNat_append_eq, toNat_append_eq]; omega

theorem toNat_packNnn (c : Nibble) (nnn : Addr12) : (packNnn c nnn).toNat = c.toNat * 4096 + nnn.toNat := by
  have h : (packNnn c nnn).toNat = (c ++ nnn).toNat := rfl
  rw [h, toNat_append_eq]; omega

theorem toNat_packDc0 (dc : BitVec 8) (n : Nibble) : (packDc0 dc n).toNat = dc.toNat * 16 + n.toNat := by
  have h : (packDc0 dc n).toNat = (((0x0#4 : Nibble) ++ dc) ++ n).toNat := rfl
  rw [h, toNat_append_eq, toNat_append_eq]; simp

theorem toNat_wordOfBytes (hi lo : Byte) : (wordOfBytes hi lo).toNat = hi.toNat * 256 + lo.toNat := by
  have h : (wordOfBytes hi lo).toNat = (hi ++ lo).toNat := rfl
  rw [h, toNat_append_eq]; omega

/-! ### Fields as numbers -/

theorem toNat_fieldC (w : Word) : (fieldC w).toNat = w.toNat / 4096 := by
  have := w.isLt
  simp only [fieldC, BitVec.extractLsb'_toNat, Nat.shiftRight_eq_div_pow]; omega

theorem toNat_fieldX (w : Word) : (fieldX w).toNat = w.toNat / 256 % 16 := by
  simp only [fieldX, BitVec.extractLsb'_toNat, Nat.shiftRight_eq_div_pow]

theorem toNat_fieldY (w : Word) : (fieldY w).toNat = w.toNat / 16 % 16 := by
  simp only [fieldY, BitVec.extractLsb'_toNat, Nat.shiftRight_eq_div_pow]

theorem toNat_fieldN (w : Word) : (fieldN w).toNat = w.toNat % 16 := by
  simp only [fieldN, BitVec.extractLsb'_toNat, Nat.shiftRight_eq_div_pow]; omega

theorem toNat_fieldKk (w : Word) : (fieldKk w).toNat = w.toNat % 256 := by
  simp only [fieldKk, BitVec.extractLsb'_toNat, Nat.shiftRight_eq_div_pow]; omega

theorem toNat_fieldNnn (w : Word) : (fieldNnn w).toNat = w.toNat % 4096 := by
  simp only [fieldNnn, BitVec.extractLsb'_toNat, Nat.shiftRight_eq_div_pow]; omega

theorem toNat_fieldDc0 (w : Word) : (fieldDc0 w).toNat = w.toNat / 16 % 256 := by
  simp only [fieldDc0, BitVec.extractLsb'_toNat, Nat.shiftRight_eq_div_pow]

theorem toNat_hiByte (w : Word) : (hiByte w).toNat = w.toNat / 256 := by
  have := w.isLt
  simp only [hiByte, BitVec.extractLsb'_toNat, Nat.shiftRight_eq_div_pow]; omega

theorem toNat_loByte (w : Word) : (loByte w).toNat = w.toNat % 256 := by
  simp only [loByte, BitVec.extractLsb'_toNat, Nat.shiftRight_eq_div_pow]; omega

/-- A word is its two bytes, high byte first (20_memory.md R78). -/
theorem wordOfBytes_hi_lo (w : Word) : wordOfBytes (hiByte w) (loByte w) = w := by
  apply BitVec.eq_of_toNat_eq
  rw [toNat_wordOfBytes, toNat_hiByte, toNat_loByte]; omega

/-! ### The fields of a packed word -/

@[simp] theorem fieldC_packXyn (c x y n : Nibble) : fieldC (packXyn c x y n) = c := by
  apply BitVec.eq_of_toNat_eq; have := x.isLt; have := y.isLt; have := n.isLt
  rw [toNat_fieldC, toNat_packXyn]; omega

@[simp] theorem fieldX_packXyn (c x y n : Nibble) : fieldX (packXyn c x y n) = x := by
  apply BitVec.eq_of_toNat_eq; have := x.isLt; have := y.isLt; have := n.isLt
  rw [toNat_fieldX, toNat_packXyn]; omega

@[simp] theorem fieldY_packXyn (c x y n : Nibble) : fieldY (packXyn c x y n) = y := by
  apply BitVec.eq_of_toNat_eq; have := y.isLt; have := n.isLt
  rw [toNat_fieldY, toNat_packXyn]; omega

@[simp] theorem fieldN_packXyn (c x y n : Nibble) : fieldN (packXyn c x y n) = n := by
  apply BitVec.eq_of_toNat_eq; have := n.isLt
  rw [toNat_fieldN, toNat_packXyn]; omega

@[simp] theorem fieldC_packXkk (c x : Nibble) (kk : Byte) : fieldC (packXkk c x kk) = c := by
  apply BitVec.eq_of_toNat_eq; have := x.isLt; have := kk.isLt
  rw [toNat_fieldC, toNat_packXkk]; omega

@[simp] theorem fieldX_packXkk (c x : Nibble) (kk : Byte) : fieldX (packXkk c x kk) = x := by
  apply BitVec.eq_of_toNat_eq; have := x.isLt; have := kk.isLt
  rw [toNat_fieldX, toNat_packXkk]; omega

@[simp] theorem fieldKk_packXkk (c x : Nibble) (kk : Byte) : fieldKk (packXkk c x kk) = kk := by
  apply BitVec.eq_of_toNat_eq; have := kk.isLt
  rw [toNat_fieldKk, toNat_packXkk]; omega

@[simp] theorem fieldC_packNnn (c : Nibble) (nnn : Addr12) : fieldC (packNnn c nnn) = c := by
  apply BitVec.eq_of_toNat_eq; have := nnn.isLt
  rw [toNat_fieldC, toNat_packNnn]; omega

@[simp] theorem fieldNnn_packNnn (c : Nibble) (nnn : Addr12) : fieldNnn (packNnn c nnn) = nnn := by
  apply BitVec.eq_of_toNat_eq; have := nnn.isLt
  rw [toNat_fieldNnn, toNat_packNnn]; omega

@[simp] theorem fieldC_packDc0 (dc : BitVec 8) (n : Nibble) : fieldC (packDc0 dc n) = 0#4 := by
  apply BitVec.eq_of_toNat_eq; have := dc.isLt; have := n.isLt
  rw [toNat_fieldC, toNat_packDc0]; simp; omega

@[simp] theorem fieldDc0_packDc0 (dc : BitVec 8) (n : Nibble) : fieldDc0 (packDc0 dc n) = dc := by
  apply BitVec.eq_of_toNat_eq; have := dc.isLt; have := n.isLt
  rw [toNat_fieldDc0, toNat_packDc0]; omega

@[simp] theorem fieldN_packDc0 (dc : BitVec 8) (n : Nibble) : fieldN (packDc0 dc n) = n := by
  apply BitVec.eq_of_toNat_eq; have := n.isLt
  rw [toNat_fieldN, toNat_packDc0]; omega

end Sys2Proof
end

