-- ==== Sys2Proof/Laws/Memory.lean ====
section
/-! SUPPORT. The laws of memory: a read after a write, that a write leaves every other address alone, and that every memory
operation keeps the canonical form (`Memory.wf`). The read laws need no canonical form. -/

namespace Sys2Proof.Machine

/-! ### Reading -/

theorem Memory.read_insert (m : Memory) (a : Nat) (v : Byte) (b : Nat) :
    (Memory.insert m a v).read b = if b = a then v else m.read b := by
  induction m with
  | nil => simp [Memory.insert, Memory.read]
  | cons c m ih =>
    obtain ⟨d, w⟩ := c
    rcases Nat.lt_trichotomy a d with h | rfl | h
    · simp [Memory.insert, Memory.read, h]
    · simp only [Memory.insert, Memory.read, Nat.lt_irrefl, if_true, if_false]
      split <;> rfl
    · have h1 : ¬ a < d := by omega
      have h2 : a ≠ d := by omega
      simp only [Memory.insert, Memory.read, h1, h2, if_false, ih]
      by_cases hb : b = d
      · subst hb; simp [Ne.symm h2]
      · simp [hb]

theorem Memory.read_erase (m : Memory) (a b : Nat) :
    (Memory.erase m a).read b = if b = a then Memory.resetByte a else m.read b := by
  induction m with
  | nil => by_cases h : b = a <;> simp [Memory.erase, Memory.read, h]
  | cons c m ih =>
    obtain ⟨d, w⟩ := c
    simp only [Memory.erase] at ih
    by_cases hd : d = a
    · subst hd
      by_cases hb : b = d
      · subst hb; simpa [Memory.erase, Memory.read] using ih
      · simp [Memory.erase, Memory.read, hb, ih]
    · by_cases hb : b = d
      · subst hb; simp [Memory.erase, Memory.read, hd]
      · simp [Memory.erase, Memory.read, hd, hb, ih]

/-- A write inside memory changes exactly one byte (20_memory.md R72). -/
theorem Memory.read_write (m : Memory) (a : Nat) (v : Byte) (h : a < 4096) (b : Nat) :
    (m.write a v).read b = if b = a then v else m.read b := by
  simp only [Memory.write, Config.memSize, h, if_true]
  by_cases hv : v = Memory.resetByte a
  · rw [if_pos hv, Memory.read_erase, hv]
  · rw [if_neg hv, Memory.read_insert]

theorem Memory.read_write_same (m : Memory) (a : Nat) (v : Byte) (h : a < 4096) : (m.write a v).read a = v := by
  simp [Memory.read_write m a v h]

/-- A write leaves every other address alone, inside memory or not. -/
theorem Memory.read_write_other (m : Memory) (a : Nat) (v : Byte) (b : Nat) (hb : b ≠ a) :
    (m.write a v).read b = m.read b := by
  by_cases h : a < 4096
  · simp [Memory.read_write m a v h, hb]
  · simp [Memory.write, Config.memSize, h]

/-- What a block of stores leaves: byte `k` of the block at `base + k`, every other address as before. -/
theorem Memory.read_writeAll (bs : List Byte) (m : Memory) (base : Nat) (h : base + bs.length ≤ 4096) (b : Nat) :
    (m.writeAll base bs).read b =
      if base ≤ b ∧ b < base + bs.length then bs.getD (b - base) 0 else m.read b := by
  induction bs generalizing m base with
  | nil => simp [Memory.writeAll]
  | cons c bs ih =>
    simp only [List.length_cons] at h
    rw [Memory.writeAll, ih _ _ (by omega), Memory.read_write _ _ _ (by omega)]
    simp only [List.length_cons]
    by_cases h0 : b = base
    · subst h0
      simp [show ¬ b + 1 ≤ b by omega]
    · by_cases h1 : base ≤ b ∧ b < base + (bs.length + 1)
      · have h2 : base + 1 ≤ b ∧ b < base + 1 + bs.length := by omega
        have h3 : b - base = (b - (base + 1)) + 1 := by omega
        rw [if_pos h1, if_pos h2, h3, List.getD_cons_succ]
      · have h2 : ¬ (base + 1 ≤ b ∧ b < base + 1 + bs.length) := by omega
        rw [if_neg h1, if_neg h2, if_neg h0]

/-- A block of stores leaves every address outside the block alone, wherever it lies. -/
theorem Memory.read_writeAll_other (bs : List Byte) (m : Memory) (base b : Nat)
    (h : b < base ∨ base + bs.length ≤ b) : (m.writeAll base bs).read b = m.read b := by
  induction bs generalizing m base with
  | nil => rfl
  | cons c bs ih =>
    simp only [List.length_cons] at h
    rw [Memory.writeAll, ih _ _ (by omega), Memory.read_write_other _ _ _ _ (by omega)]

/-! ### The canonical form -/

theorem Memory.wf_iff (m : Memory) :
    m.wf = true ↔ m.Pairwise (fun c d => c.1 < d.1) ∧ ∀ c ∈ m, Memory.cellOk c = true := by
  simp [Memory.wf, List.all_eq_true]

theorem Memory.wf_nil : Memory.wf [] = true := by decide

theorem Memory.wf_erase (m : Memory) (a : Nat) (h : m.wf = true) : (Memory.erase m a).wf = true := by
  rw [Memory.wf_iff] at *
  exact ⟨h.1.filter _, fun c hc => h.2 c (List.mem_of_mem_filter hc)⟩

theorem Memory.mem_insert (m : Memory) (a : Nat) (v : Byte) (c : Host.Cell) (hc : c ∈ Memory.insert m a v) :
    c = (a, v) ∨ c ∈ m := by
  induction m with
  | nil => simpa [Memory.insert] using hc
  | cons d m ih =>
    obtain ⟨e, w⟩ := d
    simp only [Memory.insert] at hc
    split at hc
    · simpa using hc
    · split at hc
      · rcases List.mem_cons.1 hc with h | h
        · exact .inl h
        · exact .inr (List.mem_cons_of_mem _ h)
      · rcases List.mem_cons.1 hc with h | h
        · exact .inr (h ▸ List.mem_cons_self)
        · exact (ih h).imp_right (List.mem_cons_of_mem _)

theorem Memory.pairwise_insert (m : Memory) (a : Nat) (v : Byte) (h : m.Pairwise (fun c d => c.1 < d.1)) :
    (Memory.insert m a v).Pairwise (fun c d => c.1 < d.1) := by
  induction m with
  | nil => simp [Memory.insert]
  | cons d m ih =>
    obtain ⟨e, w⟩ := d
    rw [List.pairwise_cons] at h
    simp only [Memory.insert]
    split
    next hlt =>
      refine List.pairwise_cons.2 ⟨fun c hc => ?_, List.pairwise_cons.2 h⟩
      rcases List.mem_cons.1 hc with rfl | hc
      · exact hlt
      · exact Nat.lt_trans hlt (h.1 c hc)
    next hlt =>
      split
      next heq => subst heq; exact List.pairwise_cons.2 h
      next hne =>
        refine List.pairwise_cons.2 ⟨fun c hc => ?_, ih h.2⟩
        rcases Memory.mem_insert m a v c hc with rfl | hc
        · show e < a; omega
        · exact h.1 c hc

theorem Memory.wf_insert (m : Memory) (a : Nat) (v : Byte) (h : m.wf = true) (hc : Memory.cellOk (a, v) = true) :
    (Memory.insert m a v).wf = true := by
  rw [Memory.wf_iff] at *
  refine ⟨Memory.pairwise_insert m a v h.1, fun c hcm => ?_⟩
  rcases Memory.mem_insert m a v c hcm with rfl | hm
  · exact hc
  · exact h.2 c hm

/-- A write keeps the canonical form, at every address. -/
theorem Memory.wf_write (m : Memory) (a : Nat) (v : Byte) (h : m.wf = true) : (m.write a v).wf = true := by
  simp only [Memory.write]
  split
  next ha =>
    split
    · exact Memory.wf_erase m a h
    next hv => exact Memory.wf_insert m a v h (by simp [Memory.cellOk, ha, hv])
  · exact h

/-- A block of stores keeps the canonical form. -/
theorem Memory.wf_writeAll (bs : List Byte) (m : Memory) (base : Nat) (h : m.wf = true) :
    (m.writeAll base bs).wf = true := by
  induction bs generalizing m base with
  | nil => exact h
  | cons c bs ih => exact ih _ _ (Memory.wf_write m base c h)

/-- Memory at reset is in canonical form. -/
theorem State.reset_mem_wf : State.reset.mem.wf = true := Memory.wf_nil

end Sys2Proof.Machine
end

