-- ==== Sys2Proof/Laws/State.lean ====
section
/-! SUPPORT. What each update of the state leaves in each field: one lemma per field per update, so that no later proof
unfolds an update; and what `reg` reads through the updates that write no register. -/

namespace Sys2Proof.Machine

/-! ### `State.setReg` -/

@[simp] theorem State.setReg_v (s : State) (x : Reg) (b : Byte) : (s.setReg x b).v = s.v.set x.toNat b := rfl
@[simp] theorem State.setReg_i (s : State) (x : Reg) (b : Byte) : (s.setReg x b).i = s.i := rfl
@[simp] theorem State.setReg_pc (s : State) (x : Reg) (b : Byte) : (s.setReg x b).pc = s.pc := rfl
@[simp] theorem State.setReg_sp (s : State) (x : Reg) (b : Byte) : (s.setReg x b).sp = s.sp := rfl
@[simp] theorem State.setReg_stack (s : State) (x : Reg) (b : Byte) : (s.setReg x b).stack = s.stack := rfl
@[simp] theorem State.setReg_dt (s : State) (x : Reg) (b : Byte) : (s.setReg x b).dt = s.dt := rfl
@[simp] theorem State.setReg_st (s : State) (x : Reg) (b : Byte) : (s.setReg x b).st = s.st := rfl
@[simp] theorem State.setReg_fb (s : State) (x : Reg) (b : Byte) : (s.setReg x b).fb = s.fb := rfl
@[simp] theorem State.setReg_key (s : State) (x : Reg) (b : Byte) : (s.setReg x b).key = s.key := rfl
@[simp] theorem State.setReg_op (s : State) (x : Reg) (b : Byte) : (s.setReg x b).op = s.op := rfl
@[simp] theorem State.setReg_faultCause (s : State) (x : Reg) (b : Byte) : (s.setReg x b).faultCause = s.faultCause := rfl
@[simp] theorem State.setReg_faultPc (s : State) (x : Reg) (b : Byte) : (s.setReg x b).faultPc = s.faultPc := rfl
@[simp] theorem State.setReg_faultWord (s : State) (x : Reg) (b : Byte) : (s.setReg x b).faultWord = s.faultWord := rfl
@[simp] theorem State.setReg_faultInfo (s : State) (x : Reg) (b : Byte) : (s.setReg x b).faultInfo = s.faultInfo := rfl
@[simp] theorem State.setReg_status (s : State) (x : Reg) (b : Byte) : (s.setReg x b).status = s.status := rfl
@[simp] theorem State.setReg_toneEdge (s : State) (x : Reg) (b : Byte) : (s.setReg x b).toneEdge = s.toneEdge := rfl
@[simp] theorem State.setReg_mem (s : State) (x : Reg) (b : Byte) : (s.setReg x b).mem = s.mem := rfl
@[simp] theorem State.setReg_keyIn (s : State) (x : Reg) (b : Byte) : (s.setReg x b).keyIn = s.keyIn := rfl
@[simp] theorem State.setReg_rndIn (s : State) (x : Reg) (b : Byte) : (s.setReg x b).rndIn = s.rndIn := rfl
@[simp] theorem State.setReg_pending (s : State) (x : Reg) (b : Byte) : (s.setReg x b).pending = s.pending := rfl
@[simp] theorem State.setReg_tick (s : State) (x : Reg) (b : Byte) : (s.setReg x b).tick = s.tick := rfl
@[simp] theorem State.setReg_loadClosed (s : State) (x : Reg) (b : Byte) : (s.setReg x b).loadClosed = s.loadClosed := rfl
@[simp] theorem State.setReg_locals (s : State) (x : Reg) (b : Byte) : (s.setReg x b).locals = s.locals := rfl
@[simp] theorem State.setReg_faulted (s : State) (x : Reg) (b : Byte) : (s.setReg x b).faulted = s.faulted := rfl

/-! ### `State.setI` -/

@[simp] theorem State.setI_v (s : State) (a : Word) : (s.setI a).v = s.v := rfl
@[simp] theorem State.setI_i (s : State) (a : Word) : (s.setI a).i = a := rfl
@[simp] theorem State.setI_pc (s : State) (a : Word) : (s.setI a).pc = s.pc := rfl
@[simp] theorem State.setI_sp (s : State) (a : Word) : (s.setI a).sp = s.sp := rfl
@[simp] theorem State.setI_stack (s : State) (a : Word) : (s.setI a).stack = s.stack := rfl
@[simp] theorem State.setI_dt (s : State) (a : Word) : (s.setI a).dt = s.dt := rfl
@[simp] theorem State.setI_st (s : State) (a : Word) : (s.setI a).st = s.st := rfl
@[simp] theorem State.setI_fb (s : State) (a : Word) : (s.setI a).fb = s.fb := rfl
@[simp] theorem State.setI_key (s : State) (a : Word) : (s.setI a).key = s.key := rfl
@[simp] theorem State.setI_op (s : State) (a : Word) : (s.setI a).op = s.op := rfl
@[simp] theorem State.setI_faultCause (s : State) (a : Word) : (s.setI a).faultCause = s.faultCause := rfl
@[simp] theorem State.setI_faultPc (s : State) (a : Word) : (s.setI a).faultPc = s.faultPc := rfl
@[simp] theorem State.setI_faultWord (s : State) (a : Word) : (s.setI a).faultWord = s.faultWord := rfl
@[simp] theorem State.setI_faultInfo (s : State) (a : Word) : (s.setI a).faultInfo = s.faultInfo := rfl
@[simp] theorem State.setI_status (s : State) (a : Word) : (s.setI a).status = s.status := rfl
@[simp] theorem State.setI_toneEdge (s : State) (a : Word) : (s.setI a).toneEdge = s.toneEdge := rfl
@[simp] theorem State.setI_mem (s : State) (a : Word) : (s.setI a).mem = s.mem := rfl
@[simp] theorem State.setI_keyIn (s : State) (a : Word) : (s.setI a).keyIn = s.keyIn := rfl
@[simp] theorem State.setI_rndIn (s : State) (a : Word) : (s.setI a).rndIn = s.rndIn := rfl
@[simp] theorem State.setI_pending (s : State) (a : Word) : (s.setI a).pending = s.pending := rfl
@[simp] theorem State.setI_tick (s : State) (a : Word) : (s.setI a).tick = s.tick := rfl
@[simp] theorem State.setI_loadClosed (s : State) (a : Word) : (s.setI a).loadClosed = s.loadClosed := rfl
@[simp] theorem State.setI_locals (s : State) (a : Word) : (s.setI a).locals = s.locals := rfl
@[simp] theorem State.setI_reg (s : State) (a : Word) (r : Reg) : (s.setI a).reg r = s.reg r := rfl
@[simp] theorem State.setI_faulted (s : State) (a : Word) : (s.setI a).faulted = s.faulted := rfl

/-! ### `State.setPc` -/

@[simp] theorem State.setPc_v (s : State) (a : Word) : (s.setPc a).v = s.v := rfl
@[simp] theorem State.setPc_i (s : State) (a : Word) : (s.setPc a).i = s.i := rfl
@[simp] theorem State.setPc_pc (s : State) (a : Word) : (s.setPc a).pc = a := rfl
@[simp] theorem State.setPc_sp (s : State) (a : Word) : (s.setPc a).sp = s.sp := rfl
@[simp] theorem State.setPc_stack (s : State) (a : Word) : (s.setPc a).stack = s.stack := rfl
@[simp] theorem State.setPc_dt (s : State) (a : Word) : (s.setPc a).dt = s.dt := rfl
@[simp] theorem State.setPc_st (s : State) (a : Word) : (s.setPc a).st = s.st := rfl
@[simp] theorem State.setPc_fb (s : State) (a : Word) : (s.setPc a).fb = s.fb := rfl
@[simp] theorem State.setPc_key (s : State) (a : Word) : (s.setPc a).key = s.key := rfl
@[simp] theorem State.setPc_op (s : State) (a : Word) : (s.setPc a).op = s.op := rfl
@[simp] theorem State.setPc_faultCause (s : State) (a : Word) : (s.setPc a).faultCause = s.faultCause := rfl
@[simp] theorem State.setPc_faultPc (s : State) (a : Word) : (s.setPc a).faultPc = s.faultPc := rfl
@[simp] theorem State.setPc_faultWord (s : State) (a : Word) : (s.setPc a).faultWord = s.faultWord := rfl
@[simp] theorem State.setPc_faultInfo (s : State) (a : Word) : (s.setPc a).faultInfo = s.faultInfo := rfl
@[simp] theorem State.setPc_status (s : State) (a : Word) : (s.setPc a).status = s.status := rfl
@[simp] theorem State.setPc_toneEdge (s : State) (a : Word) : (s.setPc a).toneEdge = s.toneEdge := rfl
@[simp] theorem State.setPc_mem (s : State) (a : Word) : (s.setPc a).mem = s.mem := rfl
@[simp] theorem State.setPc_keyIn (s : State) (a : Word) : (s.setPc a).keyIn = s.keyIn := rfl
@[simp] theorem State.setPc_rndIn (s : State) (a : Word) : (s.setPc a).rndIn = s.rndIn := rfl
@[simp] theorem State.setPc_pending (s : State) (a : Word) : (s.setPc a).pending = s.pending := rfl
@[simp] theorem State.setPc_tick (s : State) (a : Word) : (s.setPc a).tick = s.tick := rfl
@[simp] theorem State.setPc_loadClosed (s : State) (a : Word) : (s.setPc a).loadClosed = s.loadClosed := rfl
@[simp] theorem State.setPc_locals (s : State) (a : Word) : (s.setPc a).locals = s.locals := rfl
@[simp] theorem State.setPc_reg (s : State) (a : Word) (r : Reg) : (s.setPc a).reg r = s.reg r := rfl
@[simp] theorem State.setPc_faulted (s : State) (a : Word) : (s.setPc a).faulted = s.faulted := rfl

/-! ### `State.setDt` -/

@[simp] theorem State.setDt_v (s : State) (b : Byte) : (s.setDt b).v = s.v := rfl
@[simp] theorem State.setDt_i (s : State) (b : Byte) : (s.setDt b).i = s.i := rfl
@[simp] theorem State.setDt_pc (s : State) (b : Byte) : (s.setDt b).pc = s.pc := rfl
@[simp] theorem State.setDt_sp (s : State) (b : Byte) : (s.setDt b).sp = s.sp := rfl
@[simp] theorem State.setDt_stack (s : State) (b : Byte) : (s.setDt b).stack = s.stack := rfl
@[simp] theorem State.setDt_dt (s : State) (b : Byte) : (s.setDt b).dt = b := rfl
@[simp] theorem State.setDt_st (s : State) (b : Byte) : (s.setDt b).st = s.st := rfl
@[simp] theorem State.setDt_fb (s : State) (b : Byte) : (s.setDt b).fb = s.fb := rfl
@[simp] theorem State.setDt_key (s : State) (b : Byte) : (s.setDt b).key = s.key := rfl
@[simp] theorem State.setDt_op (s : State) (b : Byte) : (s.setDt b).op = s.op := rfl
@[simp] theorem State.setDt_faultCause (s : State) (b : Byte) : (s.setDt b).faultCause = s.faultCause := rfl
@[simp] theorem State.setDt_faultPc (s : State) (b : Byte) : (s.setDt b).faultPc = s.faultPc := rfl
@[simp] theorem State.setDt_faultWord (s : State) (b : Byte) : (s.setDt b).faultWord = s.faultWord := rfl
@[simp] theorem State.setDt_faultInfo (s : State) (b : Byte) : (s.setDt b).faultInfo = s.faultInfo := rfl
@[simp] theorem State.setDt_status (s : State) (b : Byte) : (s.setDt b).status = s.status := rfl
@[simp] theorem State.setDt_toneEdge (s : State) (b : Byte) : (s.setDt b).toneEdge = s.toneEdge := rfl
@[simp] theorem State.setDt_mem (s : State) (b : Byte) : (s.setDt b).mem = s.mem := rfl
@[simp] theorem State.setDt_keyIn (s : State) (b : Byte) : (s.setDt b).keyIn = s.keyIn := rfl
@[simp] theorem State.setDt_rndIn (s : State) (b : Byte) : (s.setDt b).rndIn = s.rndIn := rfl
@[simp] theorem State.setDt_pending (s : State) (b : Byte) : (s.setDt b).pending = s.pending := rfl
@[simp] theorem State.setDt_tick (s : State) (b : Byte) : (s.setDt b).tick = s.tick := rfl
@[simp] theorem State.setDt_loadClosed (s : State) (b : Byte) : (s.setDt b).loadClosed = s.loadClosed := rfl
@[simp] theorem State.setDt_locals (s : State) (b : Byte) : (s.setDt b).locals = s.locals := rfl
@[simp] theorem State.setDt_reg (s : State) (b : Byte) (r : Reg) : (s.setDt b).reg r = s.reg r := rfl
@[simp] theorem State.setDt_faulted (s : State) (b : Byte) : (s.setDt b).faulted = s.faulted := rfl

/-! ### `State.setSt` -/

@[simp] theorem State.setSt_v (s : State) (b : Byte) : (s.setSt b).v = s.v := rfl
@[simp] theorem State.setSt_i (s : State) (b : Byte) : (s.setSt b).i = s.i := rfl
@[simp] theorem State.setSt_pc (s : State) (b : Byte) : (s.setSt b).pc = s.pc := rfl
@[simp] theorem State.setSt_sp (s : State) (b : Byte) : (s.setSt b).sp = s.sp := rfl
@[simp] theorem State.setSt_stack (s : State) (b : Byte) : (s.setSt b).stack = s.stack := rfl
@[simp] theorem State.setSt_dt (s : State) (b : Byte) : (s.setSt b).dt = s.dt := rfl
@[simp] theorem State.setSt_st (s : State) (b : Byte) : (s.setSt b).st = b := rfl
@[simp] theorem State.setSt_fb (s : State) (b : Byte) : (s.setSt b).fb = s.fb := rfl
@[simp] theorem State.setSt_key (s : State) (b : Byte) : (s.setSt b).key = s.key := rfl
@[simp] theorem State.setSt_op (s : State) (b : Byte) : (s.setSt b).op = s.op := rfl
@[simp] theorem State.setSt_faultCause (s : State) (b : Byte) : (s.setSt b).faultCause = s.faultCause := rfl
@[simp] theorem State.setSt_faultPc (s : State) (b : Byte) : (s.setSt b).faultPc = s.faultPc := rfl
@[simp] theorem State.setSt_faultWord (s : State) (b : Byte) : (s.setSt b).faultWord = s.faultWord := rfl
@[simp] theorem State.setSt_faultInfo (s : State) (b : Byte) : (s.setSt b).faultInfo = s.faultInfo := rfl
@[simp] theorem State.setSt_status (s : State) (b : Byte) : (s.setSt b).status = s.status := rfl
@[simp] theorem State.setSt_toneEdge (s : State) (b : Byte) : (s.setSt b).toneEdge = s.toneEdge := rfl
@[simp] theorem State.setSt_mem (s : State) (b : Byte) : (s.setSt b).mem = s.mem := rfl
@[simp] theorem State.setSt_keyIn (s : State) (b : Byte) : (s.setSt b).keyIn = s.keyIn := rfl
@[simp] theorem State.setSt_rndIn (s : State) (b : Byte) : (s.setSt b).rndIn = s.rndIn := rfl
@[simp] theorem State.setSt_pending (s : State) (b : Byte) : (s.setSt b).pending = s.pending := rfl
@[simp] theorem State.setSt_tick (s : State) (b : Byte) : (s.setSt b).tick = s.tick := rfl
@[simp] theorem State.setSt_loadClosed (s : State) (b : Byte) : (s.setSt b).loadClosed = s.loadClosed := rfl
@[simp] theorem State.setSt_locals (s : State) (b : Byte) : (s.setSt b).locals = s.locals := rfl
@[simp] theorem State.setSt_reg (s : State) (b : Byte) (r : Reg) : (s.setSt b).reg r = s.reg r := rfl
@[simp] theorem State.setSt_faulted (s : State) (b : Byte) : (s.setSt b).faulted = s.faulted := rfl

/-! ### `State.setFb` -/

@[simp] theorem State.setFb_v (s : State) (f : Framebuffer) : (s.setFb f).v = s.v := rfl
@[simp] theorem State.setFb_i (s : State) (f : Framebuffer) : (s.setFb f).i = s.i := rfl
@[simp] theorem State.setFb_pc (s : State) (f : Framebuffer) : (s.setFb f).pc = s.pc := rfl
@[simp] theorem State.setFb_sp (s : State) (f : Framebuffer) : (s.setFb f).sp = s.sp := rfl
@[simp] theorem State.setFb_stack (s : State) (f : Framebuffer) : (s.setFb f).stack = s.stack := rfl
@[simp] theorem State.setFb_dt (s : State) (f : Framebuffer) : (s.setFb f).dt = s.dt := rfl
@[simp] theorem State.setFb_st (s : State) (f : Framebuffer) : (s.setFb f).st = s.st := rfl
@[simp] theorem State.setFb_fb (s : State) (f : Framebuffer) : (s.setFb f).fb = f := rfl
@[simp] theorem State.setFb_key (s : State) (f : Framebuffer) : (s.setFb f).key = s.key := rfl
@[simp] theorem State.setFb_op (s : State) (f : Framebuffer) : (s.setFb f).op = s.op := rfl
@[simp] theorem State.setFb_faultCause (s : State) (f : Framebuffer) : (s.setFb f).faultCause = s.faultCause := rfl
@[simp] theorem State.setFb_faultPc (s : State) (f : Framebuffer) : (s.setFb f).faultPc = s.faultPc := rfl
@[simp] theorem State.setFb_faultWord (s : State) (f : Framebuffer) : (s.setFb f).faultWord = s.faultWord := rfl
@[simp] theorem State.setFb_faultInfo (s : State) (f : Framebuffer) : (s.setFb f).faultInfo = s.faultInfo := rfl
@[simp] theorem State.setFb_status (s : State) (f : Framebuffer) : (s.setFb f).status = s.status := rfl
@[simp] theorem State.setFb_toneEdge (s : State) (f : Framebuffer) : (s.setFb f).toneEdge = s.toneEdge := rfl
@[simp] theorem State.setFb_mem (s : State) (f : Framebuffer) : (s.setFb f).mem = s.mem := rfl
@[simp] theorem State.setFb_keyIn (s : State) (f : Framebuffer) : (s.setFb f).keyIn = s.keyIn := rfl
@[simp] theorem State.setFb_rndIn (s : State) (f : Framebuffer) : (s.setFb f).rndIn = s.rndIn := rfl
@[simp] theorem State.setFb_pending (s : State) (f : Framebuffer) : (s.setFb f).pending = s.pending := rfl
@[simp] theorem State.setFb_tick (s : State) (f : Framebuffer) : (s.setFb f).tick = s.tick := rfl
@[simp] theorem State.setFb_loadClosed (s : State) (f : Framebuffer) : (s.setFb f).loadClosed = s.loadClosed := rfl
@[simp] theorem State.setFb_locals (s : State) (f : Framebuffer) : (s.setFb f).locals = s.locals := rfl
@[simp] theorem State.setFb_reg (s : State) (f : Framebuffer) (r : Reg) : (s.setFb f).reg r = s.reg r := rfl
@[simp] theorem State.setFb_faulted (s : State) (f : Framebuffer) : (s.setFb f).faulted = s.faulted := rfl

/-! ### `State.setMem` -/

@[simp] theorem State.setMem_v (s : State) (m : Memory) : (s.setMem m).v = s.v := rfl
@[simp] theorem State.setMem_i (s : State) (m : Memory) : (s.setMem m).i = s.i := rfl
@[simp] theorem State.setMem_pc (s : State) (m : Memory) : (s.setMem m).pc = s.pc := rfl
@[simp] theorem State.setMem_sp (s : State) (m : Memory) : (s.setMem m).sp = s.sp := rfl
@[simp] theorem State.setMem_stack (s : State) (m : Memory) : (s.setMem m).stack = s.stack := rfl
@[simp] theorem State.setMem_dt (s : State) (m : Memory) : (s.setMem m).dt = s.dt := rfl
@[simp] theorem State.setMem_st (s : State) (m : Memory) : (s.setMem m).st = s.st := rfl
@[simp] theorem State.setMem_fb (s : State) (m : Memory) : (s.setMem m).fb = s.fb := rfl
@[simp] theorem State.setMem_key (s : State) (m : Memory) : (s.setMem m).key = s.key := rfl
@[simp] theorem State.setMem_op (s : State) (m : Memory) : (s.setMem m).op = s.op := rfl
@[simp] theorem State.setMem_faultCause (s : State) (m : Memory) : (s.setMem m).faultCause = s.faultCause := rfl
@[simp] theorem State.setMem_faultPc (s : State) (m : Memory) : (s.setMem m).faultPc = s.faultPc := rfl
@[simp] theorem State.setMem_faultWord (s : State) (m : Memory) : (s.setMem m).faultWord = s.faultWord := rfl
@[simp] theorem State.setMem_faultInfo (s : State) (m : Memory) : (s.setMem m).faultInfo = s.faultInfo := rfl
@[simp] theorem State.setMem_status (s : State) (m : Memory) : (s.setMem m).status = s.status := rfl
@[simp] theorem State.setMem_toneEdge (s : State) (m : Memory) : (s.setMem m).toneEdge = s.toneEdge := rfl
@[simp] theorem State.setMem_mem (s : State) (m : Memory) : (s.setMem m).mem = m := rfl
@[simp] theorem State.setMem_keyIn (s : State) (m : Memory) : (s.setMem m).keyIn = s.keyIn := rfl
@[simp] theorem State.setMem_rndIn (s : State) (m : Memory) : (s.setMem m).rndIn = s.rndIn := rfl
@[simp] theorem State.setMem_pending (s : State) (m : Memory) : (s.setMem m).pending = s.pending := rfl
@[simp] theorem State.setMem_tick (s : State) (m : Memory) : (s.setMem m).tick = s.tick := rfl
@[simp] theorem State.setMem_loadClosed (s : State) (m : Memory) : (s.setMem m).loadClosed = s.loadClosed := rfl
@[simp] theorem State.setMem_locals (s : State) (m : Memory) : (s.setMem m).locals = s.locals := rfl
@[simp] theorem State.setMem_reg (s : State) (m : Memory) (r : Reg) : (s.setMem m).reg r = s.reg r := rfl
@[simp] theorem State.setMem_faulted (s : State) (m : Memory) : (s.setMem m).faulted = s.faulted := rfl

/-! ### `State.setStack` -/

@[simp] theorem State.setStack_v (s : State) (k : Vector Word 16) (p : BitVec 8) : (s.setStack k p).v = s.v := rfl
@[simp] theorem State.setStack_i (s : State) (k : Vector Word 16) (p : BitVec 8) : (s.setStack k p).i = s.i := rfl
@[simp] theorem State.setStack_pc (s : State) (k : Vector Word 16) (p : BitVec 8) : (s.setStack k p).pc = s.pc := rfl
@[simp] theorem State.setStack_sp (s : State) (k : Vector Word 16) (p : BitVec 8) : (s.setStack k p).sp = p := rfl
@[simp] theorem State.setStack_stack (s : State) (k : Vector Word 16) (p : BitVec 8) : (s.setStack k p).stack = k := rfl
@[simp] theorem State.setStack_dt (s : State) (k : Vector Word 16) (p : BitVec 8) : (s.setStack k p).dt = s.dt := rfl
@[simp] theorem State.setStack_st (s : State) (k : Vector Word 16) (p : BitVec 8) : (s.setStack k p).st = s.st := rfl
@[simp] theorem State.setStack_fb (s : State) (k : Vector Word 16) (p : BitVec 8) : (s.setStack k p).fb = s.fb := rfl
@[simp] theorem State.setStack_key (s : State) (k : Vector Word 16) (p : BitVec 8) : (s.setStack k p).key = s.key := rfl
@[simp] theorem State.setStack_op (s : State) (k : Vector Word 16) (p : BitVec 8) : (s.setStack k p).op = s.op := rfl
@[simp] theorem State.setStack_faultCause (s : State) (k : Vector Word 16) (p : BitVec 8) : (s.setStack k p).faultCause = s.faultCause := rfl
@[simp] theorem State.setStack_faultPc (s : State) (k : Vector Word 16) (p : BitVec 8) : (s.setStack k p).faultPc = s.faultPc := rfl
@[simp] theorem State.setStack_faultWord (s : State) (k : Vector Word 16) (p : BitVec 8) : (s.setStack k p).faultWord = s.faultWord := rfl
@[simp] theorem State.setStack_faultInfo (s : State) (k : Vector Word 16) (p : BitVec 8) : (s.setStack k p).faultInfo = s.faultInfo := rfl
@[simp] theorem State.setStack_status (s : State) (k : Vector Word 16) (p : BitVec 8) : (s.setStack k p).status = s.status := rfl
@[simp] theorem State.setStack_toneEdge (s : State) (k : Vector Word 16) (p : BitVec 8) : (s.setStack k p).toneEdge = s.toneEdge := rfl
@[simp] theorem State.setStack_mem (s : State) (k : Vector Word 16) (p : BitVec 8) : (s.setStack k p).mem = s.mem := rfl
@[simp] theorem State.setStack_keyIn (s : State) (k : Vector Word 16) (p : BitVec 8) : (s.setStack k p).keyIn = s.keyIn := rfl
@[simp] theorem State.setStack_rndIn (s : State) (k : Vector Word 16) (p : BitVec 8) : (s.setStack k p).rndIn = s.rndIn := rfl
@[simp] theorem State.setStack_pending (s : State) (k : Vector Word 16) (p : BitVec 8) : (s.setStack k p).pending = s.pending := rfl
@[simp] theorem State.setStack_tick (s : State) (k : Vector Word 16) (p : BitVec 8) : (s.setStack k p).tick = s.tick := rfl
@[simp] theorem State.setStack_loadClosed (s : State) (k : Vector Word 16) (p : BitVec 8) : (s.setStack k p).loadClosed = s.loadClosed := rfl
@[simp] theorem State.setStack_locals (s : State) (k : Vector Word 16) (p : BitVec 8) : (s.setStack k p).locals = s.locals := rfl
@[simp] theorem State.setStack_reg (s : State) (k : Vector Word 16) (p : BitVec 8) (r : Reg) : (s.setStack k p).reg r = s.reg r := rfl
@[simp] theorem State.setStack_faulted (s : State) (k : Vector Word 16) (p : BitVec 8) : (s.setStack k p).faulted = s.faulted := rfl

/-! ### `State.setBlocked` -/

@[simp] theorem State.setBlocked_v (s : State) : (s.setBlocked).v = s.v := rfl
@[simp] theorem State.setBlocked_i (s : State) : (s.setBlocked).i = s.i := rfl
@[simp] theorem State.setBlocked_pc (s : State) : (s.setBlocked).pc = s.pc := rfl
@[simp] theorem State.setBlocked_sp (s : State) : (s.setBlocked).sp = s.sp := rfl
@[simp] theorem State.setBlocked_stack (s : State) : (s.setBlocked).stack = s.stack := rfl
@[simp] theorem State.setBlocked_dt (s : State) : (s.setBlocked).dt = s.dt := rfl
@[simp] theorem State.setBlocked_st (s : State) : (s.setBlocked).st = s.st := rfl
@[simp] theorem State.setBlocked_fb (s : State) : (s.setBlocked).fb = s.fb := rfl
@[simp] theorem State.setBlocked_key (s : State) : (s.setBlocked).key = s.key := rfl
@[simp] theorem State.setBlocked_op (s : State) : (s.setBlocked).op = s.op := rfl
@[simp] theorem State.setBlocked_faultCause (s : State) : (s.setBlocked).faultCause = s.faultCause := rfl
@[simp] theorem State.setBlocked_faultPc (s : State) : (s.setBlocked).faultPc = s.faultPc := rfl
@[simp] theorem State.setBlocked_faultWord (s : State) : (s.setBlocked).faultWord = s.faultWord := rfl
@[simp] theorem State.setBlocked_faultInfo (s : State) : (s.setBlocked).faultInfo = s.faultInfo := rfl
@[simp] theorem State.setBlocked_status (s : State) : (s.setBlocked).status = s.status := rfl
@[simp] theorem State.setBlocked_toneEdge (s : State) : (s.setBlocked).toneEdge = s.toneEdge := rfl
@[simp] theorem State.setBlocked_mem (s : State) : (s.setBlocked).mem = s.mem := rfl
@[simp] theorem State.setBlocked_keyIn (s : State) : (s.setBlocked).keyIn = s.keyIn := rfl
@[simp] theorem State.setBlocked_rndIn (s : State) : (s.setBlocked).rndIn = s.rndIn := rfl
@[simp] theorem State.setBlocked_pending (s : State) : (s.setBlocked).pending = s.pending := rfl
@[simp] theorem State.setBlocked_tick (s : State) : (s.setBlocked).tick = s.tick := rfl
@[simp] theorem State.setBlocked_loadClosed (s : State) : (s.setBlocked).loadClosed = s.loadClosed := rfl
@[simp] theorem State.setBlocked_locals (s : State) : (s.setBlocked).locals = { s.locals with blocked := true } := rfl
@[simp] theorem State.setBlocked_reg (s : State) (r : Reg) : (s.setBlocked).reg r = s.reg r := rfl
@[simp] theorem State.setBlocked_faulted (s : State) : (s.setBlocked).faulted = s.faulted := rfl

/-! ### `State.raise` -/

@[simp] theorem State.raise_v (s : State) (c : FaultCause) (w : Word) : (s.raise c w).v = s.v := rfl
@[simp] theorem State.raise_i (s : State) (c : FaultCause) (w : Word) : (s.raise c w).i = s.i := rfl
@[simp] theorem State.raise_pc (s : State) (c : FaultCause) (w : Word) : (s.raise c w).pc = s.locals.start := rfl
@[simp] theorem State.raise_sp (s : State) (c : FaultCause) (w : Word) : (s.raise c w).sp = s.sp := rfl
@[simp] theorem State.raise_stack (s : State) (c : FaultCause) (w : Word) : (s.raise c w).stack = s.stack := rfl
@[simp] theorem State.raise_dt (s : State) (c : FaultCause) (w : Word) : (s.raise c w).dt = s.dt := rfl
@[simp] theorem State.raise_st (s : State) (c : FaultCause) (w : Word) : (s.raise c w).st = s.st := rfl
@[simp] theorem State.raise_fb (s : State) (c : FaultCause) (w : Word) : (s.raise c w).fb = s.fb := rfl
@[simp] theorem State.raise_key (s : State) (c : FaultCause) (w : Word) : (s.raise c w).key = s.key := rfl
@[simp] theorem State.raise_op (s : State) (c : FaultCause) (w : Word) : (s.raise c w).op = s.locals.opBefore := rfl
@[simp] theorem State.raise_faultCause (s : State) (c : FaultCause) (w : Word) : (s.raise c w).faultCause = c.code := rfl
@[simp] theorem State.raise_faultPc (s : State) (c : FaultCause) (w : Word) : (s.raise c w).faultPc = s.locals.start := rfl
@[simp] theorem State.raise_faultWord (s : State) (c : FaultCause) (w : Word) : (s.raise c w).faultWord = if c = .fetchRange then 0 else s.op := rfl
@[simp] theorem State.raise_faultInfo (s : State) (c : FaultCause) (w : Word) : (s.raise c w).faultInfo = w := rfl
@[simp] theorem State.raise_status (s : State) (c : FaultCause) (w : Word) : (s.raise c w).status = statusFaulted := rfl
@[simp] theorem State.raise_toneEdge (s : State) (c : FaultCause) (w : Word) : (s.raise c w).toneEdge = false := rfl
@[simp] theorem State.raise_mem (s : State) (c : FaultCause) (w : Word) : (s.raise c w).mem = s.mem := rfl
@[simp] theorem State.raise_keyIn (s : State) (c : FaultCause) (w : Word) : (s.raise c w).keyIn = s.keyIn := rfl
@[simp] theorem State.raise_rndIn (s : State) (c : FaultCause) (w : Word) : (s.raise c w).rndIn = s.rndIn := rfl
@[simp] theorem State.raise_pending (s : State) (c : FaultCause) (w : Word) : (s.raise c w).pending = s.pending := rfl
@[simp] theorem State.raise_tick (s : State) (c : FaultCause) (w : Word) : (s.raise c w).tick = s.tick := rfl
@[simp] theorem State.raise_loadClosed (s : State) (c : FaultCause) (w : Word) : (s.raise c w).loadClosed = s.loadClosed := rfl
@[simp] theorem State.raise_locals (s : State) (c : FaultCause) (w : Word) : (s.raise c w).locals = s.locals := rfl
@[simp] theorem State.raise_reg (s : State) (c : FaultCause) (w : Word) (r : Reg) : (s.raise c w).reg r = s.reg r := rfl

/-! ### `State.begin` -/

@[simp] theorem State.begin_v (s : State) : (s.begin).v = s.v := rfl
@[simp] theorem State.begin_i (s : State) : (s.begin).i = s.i := rfl
@[simp] theorem State.begin_pc (s : State) : (s.begin).pc = s.pc := rfl
@[simp] theorem State.begin_sp (s : State) : (s.begin).sp = s.sp := rfl
@[simp] theorem State.begin_stack (s : State) : (s.begin).stack = s.stack := rfl
@[simp] theorem State.begin_dt (s : State) : (s.begin).dt = s.dt := rfl
@[simp] theorem State.begin_st (s : State) : (s.begin).st = s.st := rfl
@[simp] theorem State.begin_fb (s : State) : (s.begin).fb = s.fb := rfl
@[simp] theorem State.begin_key (s : State) : (s.begin).key = s.keyIn := rfl
@[simp] theorem State.begin_op (s : State) : (s.begin).op = s.op := rfl
@[simp] theorem State.begin_faultCause (s : State) : (s.begin).faultCause = s.faultCause := rfl
@[simp] theorem State.begin_faultPc (s : State) : (s.begin).faultPc = s.faultPc := rfl
@[simp] theorem State.begin_faultWord (s : State) : (s.begin).faultWord = s.faultWord := rfl
@[simp] theorem State.begin_faultInfo (s : State) : (s.begin).faultInfo = s.faultInfo := rfl
@[simp] theorem State.begin_status (s : State) : (s.begin).status = s.status := rfl
@[simp] theorem State.begin_toneEdge (s : State) : (s.begin).toneEdge = s.toneEdge := rfl
@[simp] theorem State.begin_mem (s : State) : (s.begin).mem = s.mem := rfl
@[simp] theorem State.begin_keyIn (s : State) : (s.begin).keyIn = s.keyIn := rfl
@[simp] theorem State.begin_rndIn (s : State) : (s.begin).rndIn = s.rndIn := rfl
@[simp] theorem State.begin_pending (s : State) : (s.begin).pending = s.pending := rfl
@[simp] theorem State.begin_tick (s : State) : (s.begin).tick = s.tick := rfl
@[simp] theorem State.begin_loadClosed (s : State) : (s.begin).loadClosed = s.loadClosed := rfl
@[simp] theorem State.begin_locals (s : State) : (s.begin).locals = { start := s.pc, opBefore := s.op, blocked := false } := rfl
@[simp] theorem State.begin_reg (s : State) (r : Reg) : (s.begin).reg r = s.reg r := rfl
@[simp] theorem State.begin_faulted (s : State) : (s.begin).faulted = s.faulted := rfl

/-! ### `State.timerPhase` -/

@[simp] theorem State.timerPhase_v (s : State) : (s.timerPhase).v = s.v := rfl
@[simp] theorem State.timerPhase_i (s : State) : (s.timerPhase).i = s.i := rfl
@[simp] theorem State.timerPhase_pc (s : State) : (s.timerPhase).pc = s.pc := rfl
@[simp] theorem State.timerPhase_sp (s : State) : (s.timerPhase).sp = s.sp := rfl
@[simp] theorem State.timerPhase_stack (s : State) : (s.timerPhase).stack = s.stack := rfl
@[simp] theorem State.timerPhase_dt (s : State) : (s.timerPhase).dt = countDown s.dt := rfl
@[simp] theorem State.timerPhase_st (s : State) : (s.timerPhase).st = countDown s.st := rfl
@[simp] theorem State.timerPhase_fb (s : State) : (s.timerPhase).fb = s.fb := rfl
@[simp] theorem State.timerPhase_key (s : State) : (s.timerPhase).key = s.key := rfl
@[simp] theorem State.timerPhase_op (s : State) : (s.timerPhase).op = s.op := rfl
@[simp] theorem State.timerPhase_faultCause (s : State) : (s.timerPhase).faultCause = s.faultCause := rfl
@[simp] theorem State.timerPhase_faultPc (s : State) : (s.timerPhase).faultPc = s.faultPc := rfl
@[simp] theorem State.timerPhase_faultWord (s : State) : (s.timerPhase).faultWord = s.faultWord := rfl
@[simp] theorem State.timerPhase_faultInfo (s : State) : (s.timerPhase).faultInfo = s.faultInfo := rfl
@[simp] theorem State.timerPhase_status (s : State) : (s.timerPhase).status = s.status := rfl
@[simp] theorem State.timerPhase_toneEdge (s : State) : (s.timerPhase).toneEdge = (s.st == 1) := rfl
@[simp] theorem State.timerPhase_mem (s : State) : (s.timerPhase).mem = s.mem := rfl
@[simp] theorem State.timerPhase_keyIn (s : State) : (s.timerPhase).keyIn = s.keyIn := rfl
@[simp] theorem State.timerPhase_rndIn (s : State) : (s.timerPhase).rndIn = s.rndIn := rfl
@[simp] theorem State.timerPhase_pending (s : State) : (s.timerPhase).pending = s.pending := rfl
@[simp] theorem State.timerPhase_tick (s : State) : (s.timerPhase).tick = s.tick := rfl
@[simp] theorem State.timerPhase_loadClosed (s : State) : (s.timerPhase).loadClosed = s.loadClosed := rfl
@[simp] theorem State.timerPhase_locals (s : State) : (s.timerPhase).locals = s.locals := rfl
@[simp] theorem State.timerPhase_reg (s : State) (r : Reg) : (s.timerPhase).reg r = s.reg r := rfl
@[simp] theorem State.timerPhase_faulted (s : State) : (s.timerPhase).faulted = s.faulted := rfl

/-! ### `State.writeStatus` -/

@[simp] theorem State.writeStatus_v (s : State) : (s.writeStatus).v = s.v := rfl
@[simp] theorem State.writeStatus_i (s : State) : (s.writeStatus).i = s.i := rfl
@[simp] theorem State.writeStatus_pc (s : State) : (s.writeStatus).pc = s.pc := rfl
@[simp] theorem State.writeStatus_sp (s : State) : (s.writeStatus).sp = s.sp := rfl
@[simp] theorem State.writeStatus_stack (s : State) : (s.writeStatus).stack = s.stack := rfl
@[simp] theorem State.writeStatus_dt (s : State) : (s.writeStatus).dt = s.dt := rfl
@[simp] theorem State.writeStatus_st (s : State) : (s.writeStatus).st = s.st := rfl
@[simp] theorem State.writeStatus_fb (s : State) : (s.writeStatus).fb = s.fb := rfl
@[simp] theorem State.writeStatus_key (s : State) : (s.writeStatus).key = s.key := rfl
@[simp] theorem State.writeStatus_op (s : State) : (s.writeStatus).op = s.op := rfl
@[simp] theorem State.writeStatus_faultCause (s : State) : (s.writeStatus).faultCause = s.faultCause := rfl
@[simp] theorem State.writeStatus_faultPc (s : State) : (s.writeStatus).faultPc = s.faultPc := rfl
@[simp] theorem State.writeStatus_faultWord (s : State) : (s.writeStatus).faultWord = s.faultWord := rfl
@[simp] theorem State.writeStatus_faultInfo (s : State) : (s.writeStatus).faultInfo = s.faultInfo := rfl
@[simp] theorem State.writeStatus_status (s : State) : (s.writeStatus).status = if s.locals.blocked then statusBlocked else statusOk := rfl
@[simp] theorem State.writeStatus_toneEdge (s : State) : (s.writeStatus).toneEdge = s.toneEdge := rfl
@[simp] theorem State.writeStatus_mem (s : State) : (s.writeStatus).mem = s.mem := rfl
@[simp] theorem State.writeStatus_keyIn (s : State) : (s.writeStatus).keyIn = s.keyIn := rfl
@[simp] theorem State.writeStatus_rndIn (s : State) : (s.writeStatus).rndIn = s.rndIn := rfl
@[simp] theorem State.writeStatus_pending (s : State) : (s.writeStatus).pending = s.pending := rfl
@[simp] theorem State.writeStatus_tick (s : State) : (s.writeStatus).tick = s.tick := rfl
@[simp] theorem State.writeStatus_loadClosed (s : State) : (s.writeStatus).loadClosed = s.loadClosed := rfl
@[simp] theorem State.writeStatus_locals (s : State) : (s.writeStatus).locals = s.locals := rfl
@[simp] theorem State.writeStatus_reg (s : State) (r : Reg) : (s.writeStatus).reg r = s.reg r := rfl
@[simp] theorem State.writeStatus_faulted (s : State) : (s.writeStatus).faulted = s.faulted := rfl

/-! ### `State.inert` -/

@[simp] theorem State.inert_v (s : State) : (s.inert).v = s.v := rfl
@[simp] theorem State.inert_i (s : State) : (s.inert).i = s.i := rfl
@[simp] theorem State.inert_pc (s : State) : (s.inert).pc = s.pc := rfl
@[simp] theorem State.inert_sp (s : State) : (s.inert).sp = s.sp := rfl
@[simp] theorem State.inert_stack (s : State) : (s.inert).stack = s.stack := rfl
@[simp] theorem State.inert_dt (s : State) : (s.inert).dt = s.dt := rfl
@[simp] theorem State.inert_st (s : State) : (s.inert).st = s.st := rfl
@[simp] theorem State.inert_fb (s : State) : (s.inert).fb = s.fb := rfl
@[simp] theorem State.inert_key (s : State) : (s.inert).key = s.key := rfl
@[simp] theorem State.inert_op (s : State) : (s.inert).op = s.op := rfl
@[simp] theorem State.inert_faultCause (s : State) : (s.inert).faultCause = s.faultCause := rfl
@[simp] theorem State.inert_faultPc (s : State) : (s.inert).faultPc = s.faultPc := rfl
@[simp] theorem State.inert_faultWord (s : State) : (s.inert).faultWord = s.faultWord := rfl
@[simp] theorem State.inert_faultInfo (s : State) : (s.inert).faultInfo = s.faultInfo := rfl
@[simp] theorem State.inert_status (s : State) : (s.inert).status = statusFaulted := rfl
@[simp] theorem State.inert_toneEdge (s : State) : (s.inert).toneEdge = false := rfl
@[simp] theorem State.inert_mem (s : State) : (s.inert).mem = s.mem := rfl
@[simp] theorem State.inert_keyIn (s : State) : (s.inert).keyIn = s.keyIn := rfl
@[simp] theorem State.inert_rndIn (s : State) : (s.inert).rndIn = s.rndIn := rfl
@[simp] theorem State.inert_pending (s : State) : (s.inert).pending = s.pending := rfl
@[simp] theorem State.inert_tick (s : State) : (s.inert).tick = s.tick := rfl
@[simp] theorem State.inert_loadClosed (s : State) : (s.inert).loadClosed = s.loadClosed := rfl
@[simp] theorem State.inert_locals (s : State) : (s.inert).locals = s.locals := rfl
@[simp] theorem State.inert_reg (s : State) (r : Reg) : (s.inert).reg r = s.reg r := rfl
@[simp] theorem State.inert_faulted (s : State) : (s.inert).faulted = s.faulted := rfl

/-! ### `State.clearLocals` -/

@[simp] theorem State.clearLocals_v (s : State) : (s.clearLocals).v = s.v := rfl
@[simp] theorem State.clearLocals_i (s : State) : (s.clearLocals).i = s.i := rfl
@[simp] theorem State.clearLocals_pc (s : State) : (s.clearLocals).pc = s.pc := rfl
@[simp] theorem State.clearLocals_sp (s : State) : (s.clearLocals).sp = s.sp := rfl
@[simp] theorem State.clearLocals_stack (s : State) : (s.clearLocals).stack = s.stack := rfl
@[simp] theorem State.clearLocals_dt (s : State) : (s.clearLocals).dt = s.dt := rfl
@[simp] theorem State.clearLocals_st (s : State) : (s.clearLocals).st = s.st := rfl
@[simp] theorem State.clearLocals_fb (s : State) : (s.clearLocals).fb = s.fb := rfl
@[simp] theorem State.clearLocals_key (s : State) : (s.clearLocals).key = s.key := rfl
@[simp] theorem State.clearLocals_op (s : State) : (s.clearLocals).op = s.op := rfl
@[simp] theorem State.clearLocals_faultCause (s : State) : (s.clearLocals).faultCause = s.faultCause := rfl
@[simp] theorem State.clearLocals_faultPc (s : State) : (s.clearLocals).faultPc = s.faultPc := rfl
@[simp] theorem State.clearLocals_faultWord (s : State) : (s.clearLocals).faultWord = s.faultWord := rfl
@[simp] theorem State.clearLocals_faultInfo (s : State) : (s.clearLocals).faultInfo = s.faultInfo := rfl
@[simp] theorem State.clearLocals_status (s : State) : (s.clearLocals).status = s.status := rfl
@[simp] theorem State.clearLocals_toneEdge (s : State) : (s.clearLocals).toneEdge = s.toneEdge := rfl
@[simp] theorem State.clearLocals_mem (s : State) : (s.clearLocals).mem = s.mem := rfl
@[simp] theorem State.clearLocals_keyIn (s : State) : (s.clearLocals).keyIn = s.keyIn := rfl
@[simp] theorem State.clearLocals_rndIn (s : State) : (s.clearLocals).rndIn = s.rndIn := rfl
@[simp] theorem State.clearLocals_pending (s : State) : (s.clearLocals).pending = s.pending := rfl
@[simp] theorem State.clearLocals_tick (s : State) : (s.clearLocals).tick = s.tick := rfl
@[simp] theorem State.clearLocals_loadClosed (s : State) : (s.clearLocals).loadClosed = s.loadClosed := rfl
@[simp] theorem State.clearLocals_locals (s : State) : (s.clearLocals).locals = StepLocals.idle := rfl
@[simp] theorem State.clearLocals_reg (s : State) (r : Reg) : (s.clearLocals).reg r = s.reg r := rfl
@[simp] theorem State.clearLocals_faulted (s : State) : (s.clearLocals).faulted = s.faulted := rfl

/-! ### `State.closeLoad` -/

@[simp] theorem State.closeLoad_v (s : State) : (s.closeLoad).v = s.v := rfl
@[simp] theorem State.closeLoad_i (s : State) : (s.closeLoad).i = s.i := rfl
@[simp] theorem State.closeLoad_pc (s : State) : (s.closeLoad).pc = s.pc := rfl
@[simp] theorem State.closeLoad_sp (s : State) : (s.closeLoad).sp = s.sp := rfl
@[simp] theorem State.closeLoad_stack (s : State) : (s.closeLoad).stack = s.stack := rfl
@[simp] theorem State.closeLoad_dt (s : State) : (s.closeLoad).dt = s.dt := rfl
@[simp] theorem State.closeLoad_st (s : State) : (s.closeLoad).st = s.st := rfl
@[simp] theorem State.closeLoad_fb (s : State) : (s.closeLoad).fb = s.fb := rfl
@[simp] theorem State.closeLoad_key (s : State) : (s.closeLoad).key = s.key := rfl
@[simp] theorem State.closeLoad_op (s : State) : (s.closeLoad).op = s.op := rfl
@[simp] theorem State.closeLoad_faultCause (s : State) : (s.closeLoad).faultCause = s.faultCause := rfl
@[simp] theorem State.closeLoad_faultPc (s : State) : (s.closeLoad).faultPc = s.faultPc := rfl
@[simp] theorem State.closeLoad_faultWord (s : State) : (s.closeLoad).faultWord = s.faultWord := rfl
@[simp] theorem State.closeLoad_faultInfo (s : State) : (s.closeLoad).faultInfo = s.faultInfo := rfl
@[simp] theorem State.closeLoad_status (s : State) : (s.closeLoad).status = s.status := rfl
@[simp] theorem State.closeLoad_toneEdge (s : State) : (s.closeLoad).toneEdge = s.toneEdge := rfl
@[simp] theorem State.closeLoad_mem (s : State) : (s.closeLoad).mem = s.mem := rfl
@[simp] theorem State.closeLoad_keyIn (s : State) : (s.closeLoad).keyIn = s.keyIn := rfl
@[simp] theorem State.closeLoad_rndIn (s : State) : (s.closeLoad).rndIn = s.rndIn := rfl
@[simp] theorem State.closeLoad_pending (s : State) : (s.closeLoad).pending = s.pending := rfl
@[simp] theorem State.closeLoad_tick (s : State) : (s.closeLoad).tick = s.tick := rfl
@[simp] theorem State.closeLoad_loadClosed (s : State) : (s.closeLoad).loadClosed = true := rfl
@[simp] theorem State.closeLoad_locals (s : State) : (s.closeLoad).locals = s.locals := rfl
@[simp] theorem State.closeLoad_reg (s : State) (r : Reg) : (s.closeLoad).reg r = s.reg r := rfl
@[simp] theorem State.closeLoad_faulted (s : State) : (s.closeLoad).faulted = s.faulted := rfl

end Sys2Proof.Machine
end

