-- ==== Sys2Proof/Laws/Ops.lean ====
section
/-! SUPPORT. One lemma per shared operation that says everything it can do: registers, pixels, the range checks, the stack
primitives, the block transfers, the sprite's pixels. Later proofs cite these instead of unfolding the operations. -/

namespace Sys2Proof.Machine

/-! ### Registers -/

theorem State.reg_setReg (s : State) (x : Reg) (b : Byte) (r : Reg) :
    (s.setReg x b).reg r = if r = x then b else s.reg r := by
  simp only [State.reg, State.setReg, Vector.getElem_set]
  by_cases h : r = x
  · simp [h]
  · have h' : x.toNat ≠ r.toNat := fun e => h (BitVec.eq_of_toNat_eq e.symm)
    simp [h, h']

theorem State.reg_setFlag (s : State) (f : Byte) (r : Reg) :
    (s.setFlag f).reg r = if r = vf then f else s.reg r := State.reg_setReg s vf f r

/-- Flag last (10_state.md R32): VF holds the flag even where the destination is VF. -/
theorem State.reg_setRegFlag (s : State) (x : Reg) (b : Byte) (f : Bool) (r : Reg) :
    (s.setRegFlag x b f).reg r = if r = vf then flagByte f else if r = x then b else s.reg r := by
  simp only [State.setRegFlag, State.reg_setFlag, State.reg_setReg]

/-- Writing a register and the flag changes `V` alone. -/
theorem State.setRegFlag_eq (s : State) (x : Reg) (b : Byte) (f : Bool) :
    s.setRegFlag x b f = { s with v := (s.setRegFlag x b f).v } := rfl

theorem State.setReg_eq (s : State) (x : Reg) (b : Byte) : s.setReg x b = { s with v := (s.setReg x b).v } := rfl

/-- Two register files that read the same are the same. -/
theorem State.v_ext {s t : State} (h : ∀ r, s.reg r = t.reg r) : s.v = t.v := by
  apply Vector.ext
  intro k hk
  have e := h (BitVec.ofNat 4 k)
  have hk' : (BitVec.ofNat 4 k).toNat = k := by simp; omega
  simpa only [State.reg, hk'] using e

/-! ### Pixels -/

theorem Framebuffer.pixel_setPixel (fb : Framebuffer) (x : Fin 64) (y : Fin 32) (p : Bool) (x' : Fin 64) (y' : Fin 32) :
    (fb.setPixel x y p).pixel x' y' = if x' = x ∧ y' = y then p else fb.pixel x' y' := by
  simp only [Framebuffer.pixel, Framebuffer.setPixel, Vector.getElem_set]
  by_cases hy : y' = y
  · subst hy
    by_cases hx : x' = x
    · simp [hx]
    · have : x.val ≠ x'.val := fun e => hx (Fin.ext e.symm)
      simp [hx, this]
  · have : y.val ≠ y'.val := fun e => hy (Fin.ext e.symm)
    simp [hy, this]

theorem Framebuffer.pixel_clear (x : Fin 64) (y : Fin 32) : Framebuffer.clear.pixel x y = false := by
  simp [Framebuffer.pixel, Framebuffer.clear]

/-- Two framebuffers with the same pixels are the same. -/
theorem Framebuffer.ext_pixel {f g : Framebuffer} (h : ∀ x y, f.pixel x y = g.pixel x y) : f = g := by
  apply Vector.ext
  intro y hy
  apply Vector.ext
  intro x hx
  exact h ⟨x, hx⟩ ⟨y, hy⟩

/-! ### Fault entry -/

theorem FaultCause.code_ne_zero (c : FaultCause) : c.code ≠ 0 := by cases c <;> decide

theorem FaultCause.code_le (c : FaultCause) : c.code.toNat ≤ 6 := by cases c <;> decide

/-- The block is faulted after every fault entry. -/
@[simp] theorem State.raise_faulted (s : State) (c : FaultCause) (w : Word) : (s.raise c w).faulted = true := by
  cases c <;> rfl

theorem State.faulted_iff (s : State) : s.faulted = true ↔ s.faultCause ≠ 0 := by simp [State.faulted]

theorem State.not_faulted_iff (s : State) : s.faulted = false ↔ s.faultCause = 0 := by simp [State.faulted]

/-! ### Checks -/

theorem outOfRange_iff (base : Word) (count : Nat) :
    outOfRange base count = true ↔ 0 < count ∧ base.toNat + count - 1 > 0xFFF := by
  simp [outOfRange, Config.memTop]

theorem firstOutside_toNat (base : Word) : (firstOutside base).toNat = max base.toNat 0x1000 := by
  simp only [firstOutside]
  split
  · show 4096 = _; omega
  · omega

/-- `CheckRange` lets the access through, or enters the fault with nothing else done. -/
theorem State.checkRange_cases {s : State} {n : Nat} {k : State → State} {t : State} (h : s.checkRange n k = .next t) :
    (outOfRange s.i n = false ∧ t = k s) ∨ (outOfRange s.i n = true ∧ t = s.raise .memRange (firstOutside s.i)) := by
  simp only [State.checkRange] at h
  split at h
  next hr => exact .inr ⟨hr, (Host.Outcome.next.inj h).symm⟩
  next hr => exact .inl ⟨by simpa using hr, (Host.Outcome.next.inj h).symm⟩

theorem State.checkRange_ok {s : State} {n : Nat} {k : State → State} (h : outOfRange s.i n = false) :
    s.checkRange n k = .next (k s) := by simp [State.checkRange, h]

theorem State.checkRange_fault {s : State} {n : Nat} {k : State → State} (h : outOfRange s.i n = true) :
    s.checkRange n k = .next (s.raise .memRange (firstOutside s.i)) := by simp [State.checkRange, h]

/-- The index check lets a value of at most 0xF through, or enters the fault with the value as its info. -/
theorem State.checkIndex_cases {s : State} {c : FaultCause} {v : Byte} {k : Nibble → State → State} {t : State}
    (h : s.checkIndex c v k = .next t) :
    (v.toNat ≤ 0xF ∧ t = k (v.setWidth 4) s) ∨ (v.toNat > 0xF ∧ t = s.raise c (v.setWidth 16)) := by
  simp only [State.checkIndex] at h
  split at h
  next hv => exact .inr ⟨hv, (Host.Outcome.next.inj h).symm⟩
  next hv => exact .inl ⟨by omega, (Host.Outcome.next.inj h).symm⟩

theorem State.checkIndex_ok {s : State} {c : FaultCause} {v : Byte} {k : Nibble → State → State} (h : v.toNat ≤ 0xF) :
    s.checkIndex c v k = .next (k (v.setWidth 4) s) := by
  simp [State.checkIndex, show ¬ v.toNat > 15 by omega]

theorem State.checkIndex_fault {s : State} {c : FaultCause} {v : Byte} {k : Nibble → State → State} (h : v.toNat > 0xF) :
    s.checkIndex c v k = .next (s.raise c (v.setWidth 16)) := by simp [State.checkIndex, h]

/-! ### The stack -/

/-- Push stores and increments, or enters STACK_OVERFLOW; a next state means a pointer of at most 16. -/
theorem State.push_cases {s : State} {v : Word} {k : State → State} {t : State} (h : s.push v k = .next t) :
    (∃ hsp : s.sp.toNat < 16, t = k (s.setStack (s.stack.set s.sp.toNat v) (s.sp + 1))) ∨
      (s.sp.toNat = 16 ∧ t = s.raise .stackOverflow 16) := by
  simp only [State.push] at h
  split at h
  next hsp => exact .inl ⟨hsp, (Host.Outcome.next.inj h).symm⟩
  next hsp =>
    split at h
    next he => exact .inr ⟨he, (Host.Outcome.next.inj h).symm⟩
    next => cases h

theorem State.push_ok {s : State} {v : Word} {k : State → State} (h : s.sp.toNat < 16) :
    s.push v k = .next (k (s.setStack (s.stack.set s.sp.toNat v) (s.sp + 1))) := by simp [State.push, h]

theorem State.push_full {s : State} {v : Word} {k : State → State} (h : s.sp.toNat = 16) :
    s.push v k = .next (s.raise .stackOverflow 16) := by simp [State.push, h]

theorem State.push_impossible {s : State} {v : Word} {k : State → State} (h : 16 < s.sp.toNat) :
    s.push v k = .fault .stackPointerRange := by
  simp [State.push, show ¬ s.sp.toNat < 16 by omega, show s.sp.toNat ≠ 16 by omega]

/-- Pop decrements and loads, or enters STACK_UNDERFLOW; a next state means a pointer of at most 16. -/
theorem State.pop_cases {s : State} {k : Word → State → State} {t : State} (h : s.pop k = .next t) :
    (∃ hsp : s.sp.toNat - 1 < 16, s.sp ≠ 0 ∧ t = k s.stack[s.sp.toNat - 1] (s.setStack s.stack (s.sp - 1))) ∨
      (s.sp = 0 ∧ t = s.raise .stackUnderflow 0) := by
  simp only [State.pop] at h
  split at h
  next h0 => exact .inr ⟨h0, (Host.Outcome.next.inj h).symm⟩
  next h0 =>
    split at h
    next hsp => exact .inl ⟨hsp, h0, (Host.Outcome.next.inj h).symm⟩
    next => cases h

theorem State.pop_ok {s : State} {k : Word → State → State} (h0 : s.sp ≠ 0) (h : s.sp.toNat - 1 < 16) :
    s.pop k = .next (k s.stack[s.sp.toNat - 1] (s.setStack s.stack (s.sp - 1))) := by
  simp only [State.pop, if_neg h0, dif_pos h]

theorem State.pop_empty {s : State} {k : Word → State → State} (h : s.sp = 0) :
    s.pop k = .next (s.raise .stackUnderflow 0) := by simp [State.pop, h]

theorem State.pop_impossible {s : State} {k : Word → State → State} (h : 16 < s.sp.toNat) :
    s.pop k = .fault .stackPointerRange := by
  have h0 : s.sp ≠ 0 := by intro e; simp [e] at h
  have h1 : ¬ s.sp.toNat - 1 < 16 := by omega
  simp only [State.pop, if_neg h0, dif_neg h1]

/-! ### Skip -/

/-- Skip changes the pc alone. -/
theorem State.skipIf_eq (s : State) (c : Bool) : s.skipIf c = s.setPc (if c then s.pc + 2 else s.pc) := by
  cases c <;> rfl

/-! ### Block transfers -/

theorem State.length_block (s : State) (x : Reg) : (s.block x).length = x.toNat + 1 := by
  simp [State.block, blockCount]

theorem State.getD_block (s : State) (x : Reg) (k : Nat) (h : k ≤ x.toNat) :
    (s.block x).getD k 0 = s.reg (BitVec.ofNat 4 k) := by
  have : k < blockCount x := by simp only [blockCount]; omega
  simp [State.block, List.getD_eq_getElem?_getD, List.getElem?_range this]

/-- The load of `count` registers changes `V` alone. -/
theorem State.loadBlock_eq (s : State) (count : Nat) : s.loadBlock count = { s with v := (s.loadBlock count).v } := by
  induction count with
  | zero => rfl
  | succ k ih => rw [State.loadBlock, State.setReg_eq, ih]

theorem State.reg_loadBlock (s : State) (count : Nat) (h : count ≤ 16) (r : Reg) :
    (s.loadBlock count).reg r = if r.toNat < count then s.mem.read (s.i.toNat + r.toNat) else s.reg r := by
  induction count with
  | zero => simp [State.loadBlock]
  | succ k ih =>
    have hk : (BitVec.ofNat 4 k).toNat = k := by simp; omega
    rw [State.loadBlock, State.reg_setReg, ih (by omega)]
    by_cases hr : r = BitVec.ofNat 4 k
    · subst hr; simp [hk]
    · have : r.toNat ≠ k := fun e => hr (BitVec.eq_of_toNat_eq (by rw [hk, e]))
      simp only [hr, if_false]
      by_cases h2 : r.toNat < k
      · simp [h2, show r.toNat < k + 1 by omega]
      · simp [h2, show ¬ r.toNat < k + 1 by omega]

/-! ### The keypad -/

/-- `leastKey` answers the least pressed key. -/
theorem State.leastKey_some {s : State} {k : Nat} (h : s.leastKey = some k) :
    k < 16 ∧ s.key.getLsbD k = true ∧ ∀ j, j < k → s.key.getLsbD j = false := by
  obtain ⟨hk, l, r, e, hl⟩ := List.find?_eq_some_iff_append.1 h
  have hmem : k ∈ List.range 16 := by rw [e]; simp
  refine ⟨List.mem_range.1 hmem, hk, fun j hj => ?_⟩
  have hlt : (List.range 16).Pairwise (· < ·) := List.pairwise_lt_range
  have hj' : j ∈ List.range 16 := List.mem_range.2 (Nat.lt_trans hj (List.mem_range.1 hmem))
  rw [e] at hj' hlt
  have hl' := (List.pairwise_append.1 hlt).2.1
  rcases List.mem_append.1 hj' with hm | hm
  · simpa using hl j hm
  · rcases List.mem_cons.1 hm with rfl | hm
    · omega
    · have := (List.pairwise_cons.1 hl').1 j hm; omega

/-- `leastKey` answers none exactly when no key is pressed. -/
theorem State.leastKey_none {s : State} : s.leastKey = none ↔ s.key = 0 := by
  constructor
  · intro h
    have h' := List.find?_eq_none.1 h
    apply BitVec.eq_of_getLsbD_eq
    intro j hj
    have := h' j (List.mem_range.2 hj)
    simpa using this
  · intro h
    simp [State.leastKey, h]

/-- A key number in range reads its own level. -/
theorem State.keyDown_setWidth (s : State) {v : Byte} (h : v.toNat ≤ 0xF) :
    s.keyDown (v.setWidth 4) = s.key.getLsbD v.toNat := by
  have : (v.setWidth 4).toNat = v.toNat := by rw [BitVec.toNat_setWidth]; omega
  simp only [State.keyDown, this]

/-! ### Sprites -/

/-- One sprite pixel, as it leaves every pixel of the screen. -/
theorem pixel_drawPixel (px py : Nat) (bit : Bool) (acc : Framebuffer × Bool) (x : Fin 64) (y : Fin 32) :
    (drawPixel px py bit acc).1.pixel x y =
      (acc.1.pixel x y ^^ (decide (x.val = px) && decide (y.val = py) && bit)) := by
  simp only [drawPixel]
  split
  next h =>
    rw [Framebuffer.pixel_setPixel]
    by_cases hp : x.val = px ∧ y.val = py
    · have ex : x = ⟨px, h.1⟩ := Fin.ext hp.1
      have ey : y = ⟨py, h.2⟩ := Fin.ext hp.2
      simp [ex, ey]
    · have hn : ¬ (x = ⟨px, h.1⟩ ∧ y = ⟨py, h.2⟩) := fun e => hp ⟨congrArg Fin.val e.1, congrArg Fin.val e.2⟩
      rw [if_neg hn]
      rcases not_and_or.1 hp with h1 | h1 <;> simp [h1]
  next h =>
    have : (decide (x.val = px) && decide (y.val = py)) = false := by
      have := x.isLt; have := y.isLt
      simp only [Bool.and_eq_false_iff, decide_eq_false_iff_not]; omega
    simp [this]

/-- One sprite pixel's collision report, ORed into the flag. -/
theorem hit_drawPixel (px py : Nat) (bit : Bool) (acc : Framebuffer × Bool) :
    (drawPixel px py bit acc).2 = true ↔
      acc.2 = true ∨ ∃ (x : Fin 64) (y : Fin 32), x.val = px ∧ y.val = py ∧ acc.1.pixel x y = true ∧ bit = true := by
  simp only [drawPixel]
  split
  next h =>
    simp only [collides, Bool.or_eq_true, Bool.and_eq_true]
    constructor
    · rintro (h1 | ⟨h1, h2⟩)
      · exact .inl h1
      · exact .inr ⟨⟨px, h.1⟩, ⟨py, h.2⟩, rfl, rfl, h1, h2⟩
    · rintro (h1 | ⟨x, y, hx, hy, h1, h2⟩)
      · exact .inl h1
      · refine .inr ⟨?_, h2⟩
        have ex : x = ⟨px, h.1⟩ := Fin.ext hx
        have ey : y = ⟨py, h.2⟩ := Fin.ext hy
        rw [← ex, ← ey]; exact h1
  next h =>
    constructor
    · exact .inl
    · rintro (h1 | ⟨x, y, hx, hy, -, -⟩)
      · exact h1
      · have := x.isLt; have := y.isLt; omega

end Sys2Proof.Machine
end

