-- ==== Sys2Proof/Laws/Step.lean ====
section
/-! SUPPORT. What a step can do, said once: the fetch, the end of a step, and the inversion of `step` into its four cases.
Claims about every step go through `step_cases`. -/

namespace Sys2Proof.Machine

/-! ### Outcomes -/

theorem Result.map_eq_next {f : State → State} {r : Result} {t : State} (h : Result.map f r = .next t) :
    ∃ u, r = .next u ∧ t = f u := by
  cases r with
  | next u => exact ⟨u, rfl, (Host.Outcome.next.inj h).symm⟩
  | fault => cases h
  | refused => cases h

/-! ### The fetch -/

theorem State.fetch_ok {s : State} (h : s.pc.toNat + 1 ≤ 0xFFF) : s.fetch = s.fetched := by
  rw [State.fetch, if_neg (by simp only [Config.memTop]; omega)]

theorem State.fetch_fault {s : State} (h : 0xFFF < s.pc.toNat + 1) :
    s.fetch = s.raise .fetchRange (firstOutside s.pc) := by
  rw [State.fetch, if_pos (by simp only [Config.memTop]; omega)]

theorem State.wordAt_eq (s : State) (a : Nat) : s.wordAt a = wordOfBytes (s.mem.read a) (s.mem.read (a + 1)) := rfl

@[simp] theorem State.fetched_faulted (s : State) : s.fetched.faulted = s.faulted := rfl

/-! ### The end of a step -/

theorem State.endPhases_faulted {s : State} (h : s.faulted = true) : s.endPhases = s := by simp [State.endPhases, h]

theorem State.endPhases_ok {s : State} (h : s.faulted = false) : s.endPhases = s.timerPhase.writeStatus := by
  simp [State.endPhases, h]

/-- The host's move changes its ports alone. -/
theorem State.hostDrive_eq (s : State) : ∃ k r p n, s.hostDrive = { s with keyIn := k, rndIn := r, pending := p, tick := n } := by
  unfold State.hostDrive
  split
  next h => exact ⟨Config.hostKeys s.tick, Config.hostRnd s.tick, s.pending, s.tick + 1, rfl⟩
  next i rest h => exact ⟨i.keys, i.rnd, rest, s.tick, rfl⟩

/-- Up to the host's ports, a step ends with its end phases and idle locals. -/
theorem State.finish_eq (s : State) : ∃ k r p n, s.finish =
    { s.endPhases with locals := StepLocals.idle, keyIn := k, rndIn := r, pending := p, tick := n, loadClosed := true } := by
  show ∃ k r p n, s.endPhases.clearLocals.closeLoad.hostDrive = _
  generalize s.endPhases = u
  exact State.hostDrive_eq u.clearLocals.closeLoad

@[simp] theorem State.finish_faultCause (s : State) : s.finish.faultCause = s.faultCause := by
  obtain ⟨k, r, p, n, h⟩ := State.finish_eq s
  rw [h]
  cases hf : s.faulted
  · rw [State.endPhases_ok hf]; rfl
  · rw [State.endPhases_faulted hf]

/-- Every step leaves the load port closed. -/
@[simp] theorem State.finish_loadClosed (s : State) : s.finish.loadClosed = true := by
  obtain ⟨k, r, p, n, h⟩ := State.finish_eq s
  rw [h]

@[simp] theorem State.finish_faulted (s : State) : s.finish.faulted = s.faulted := by
  simp only [State.faulted, State.finish_faultCause]

/-! ### What a step can do -/

/-- The four cases of a step that answers a next state: the block was faulted; the fetch faulted; the word is a miss; the
word is an instruction, and its meaning answered. -/
theorem step_cases {s t : State} (h : step s = .next t) :
    (s.faulted = true ∧ t = s.inert.finish) ∨
    (s.faulted = false ∧ 0xFFF < s.pc.toNat + 1 ∧ t = (s.begin.raise .fetchRange (firstOutside s.pc)).finish) ∨
    (s.faulted = false ∧ s.pc.toNat + 1 ≤ 0xFFF ∧ (∃ m, decodeWord (s.wordAt s.pc.toNat) = .miss m) ∧
      t = s.begin.fetched.finish) ∨
    (s.faulted = false ∧ s.pc.toNat + 1 ≤ 0xFFF ∧ ∃ i u, decodeWord (s.wordAt s.pc.toNat) = .insn i ∧
      exec i s.begin.fetched = .next u ∧ t = u.finish) := by
  unfold step at h
  cases hf : s.faulted with
  | true => rw [if_pos hf] at h; exact .inl ⟨rfl, (Host.Outcome.next.inj h).symm⟩
  | false =>
    rw [if_neg (by simp [hf])] at h
    by_cases hp : s.pc.toNat + 1 ≤ 0xFFF
    · rw [State.fetch_ok (s := s.begin) hp] at h
      have hnf : s.begin.fetched.faulted = false := hf
      simp only [execFetched, hnf, if_false, Bool.false_eq_true] at h
      have hop : s.begin.fetched.op = s.wordAt s.pc.toNat := rfl
      cases hd : decodeWord (s.wordAt s.pc.toNat) with
      | insn i =>
        rw [execWord, hop, hd] at h
        obtain ⟨u, hu, ht⟩ := Result.map_eq_next h
        exact .inr (.inr (.inr ⟨rfl, hp, i, u, rfl, hu, ht⟩))
      | miss m =>
        rw [execWord, hop, hd] at h
        exact .inr (.inr (.inl ⟨rfl, hp, ⟨m, rfl⟩, (Host.Outcome.next.inj h).symm⟩))
    · have hp' : 0xFFF < s.pc.toNat + 1 := by omega
      rw [State.fetch_fault (s := s.begin) hp'] at h
      simp only [execFetched, State.raise_faulted, if_true] at h
      exact .inr (.inl ⟨rfl, hp', (Host.Outcome.next.inj h).symm⟩)

/-! ### Runs -/

/-- A run of any machine after a step that answered. -/
theorem coreRun_of_next (M : Host.Core) {k : Nat} {s u : M.State} (h : M.step s = .next u) :
    M.run (k + 1) s = M.run k u := by
  rw [Host.Core.run.eq_2, h]

/-- A run of any machine that answers a next state after at least one step is a step and then the rest of the run. -/
theorem coreRun_succ_cases (M : Host.Core) {k : Nat} {s t : M.State} (h : M.run (k + 1) s = .next t) :
    ∃ u, M.step s = .next u ∧ M.run k u = .next t := by
  cases hs : M.step s with
  | next u => exact ⟨u, rfl, (coreRun_of_next M hs).symm.trans h⟩
  | fault r => rw [Host.Core.run.eq_2, hs] at h; cases h
  | refused r => rw [Host.Core.run.eq_2, hs] at h; cases h

/-- A run of the block after a step that answered. -/
theorem run_succ_of_next {k : Nat} {s u : State} (h : step s = .next u) :
    Host.Core.run Sys2Proof.core (k + 1) s = Host.Core.run Sys2Proof.core k u := coreRun_of_next Sys2Proof.core h

/-- A run of the block that answers a next state after at least one step is a step and then the rest of the run. -/
theorem run_succ_cases {k : Nat} {s t : State} (h : Host.Core.run Sys2Proof.core (k + 1) s = .next t) :
    ∃ u : State, step s = .next u ∧ Host.Core.run Sys2Proof.core k u = .next t := coreRun_succ_cases Sys2Proof.core h

end Sys2Proof.Machine
end

