-- ==== Sys2Proof/Laws/Exec.lean ====
section
/-! SUPPORT. What executing an instruction can do, said once (`exec_next_cases`); the sprite as it leaves the screen; the
end of a step field by field; the decoder at the program counter; building and using frames. -/

namespace Sys2Proof.Machine

/-! ### Every instruction -/

/-- What a meaning that enters no fault can change: registers, I, pc, stack, timers, framebuffer, memory, and the step's
`blocked`. The latch, the fault record, the outputs, the snapshot, the ports and the step's start are untouched. -/
def Effect (s t : State) : Prop :=
  t = { s with v := t.v, i := t.i, pc := t.pc, sp := t.sp, stack := t.stack, dt := t.dt, st := t.st, fb := t.fb,
               mem := t.mem, locals := { s.locals with blocked := t.locals.blocked } }

/-- A meaning that answers a next state enters a fault of its own or has an `Effect`. -/
theorem exec_next_cases {i : Instr} {s t : State} (h : exec i s = .next t) :
    (∃ c w, c ≠ .fetchRange ∧ t = s.raise c w) ∨ Effect s t := by
  cases i with
  | ret dc =>
    simp only [exec, execRet] at h
    rcases State.pop_cases h with ⟨_, _, rfl⟩ | ⟨_, rfl⟩
    · exact .inr rfl
    · exact .inl ⟨_, _, by decide, rfl⟩
  | call nnn =>
    simp only [exec, execCall] at h
    rcases State.push_cases h with ⟨_, rfl⟩ | ⟨_, rfl⟩
    · exact .inr rfl
    · exact .inl ⟨_, _, by decide, rfl⟩
  | drw x y n =>
    simp only [exec, execDrw] at h
    rcases State.checkRange_cases h with ⟨_, rfl⟩ | ⟨_, rfl⟩
    · exact .inr rfl
    · exact .inl ⟨_, _, by decide, rfl⟩
  | ldBVx x =>
    simp only [exec, execLdBVx] at h
    rcases State.checkRange_cases h with ⟨_, rfl⟩ | ⟨_, rfl⟩
    · exact .inr rfl
    · exact .inl ⟨_, _, by decide, rfl⟩
  | ldMemVx x =>
    simp only [exec, execLdMemVx] at h
    rcases State.checkRange_cases h with ⟨_, rfl⟩ | ⟨_, rfl⟩
    · exact .inr rfl
    · exact .inl ⟨_, _, by decide, rfl⟩
  | ldVxMem x =>
    simp only [exec, execLdVxMem] at h
    rcases State.checkRange_cases h with ⟨_, rfl⟩ | ⟨_, rfl⟩
    · exact .inr (by rw [State.loadBlock_eq]; rfl)
    · exact .inl ⟨_, _, by decide, rfl⟩
  | skp x dc =>
    simp only [exec, execSkp] at h
    rcases State.checkIndex_cases h with ⟨_, rfl⟩ | ⟨_, rfl⟩
    · exact .inr (by rw [State.skipIf_eq]; rfl)
    · exact .inl ⟨_, _, by decide, rfl⟩
  | sknp x dc =>
    simp only [exec, execSknp] at h
    rcases State.checkIndex_cases h with ⟨_, rfl⟩ | ⟨_, rfl⟩
    · exact .inr (by rw [State.skipIf_eq]; rfl)
    · exact .inl ⟨_, _, by decide, rfl⟩
  | ldFVx x =>
    simp only [exec, execLdFVx] at h
    rcases State.checkIndex_cases h with ⟨_, rfl⟩ | ⟨_, rfl⟩
    · exact .inr rfl
    · exact .inl ⟨_, _, by decide, rfl⟩
  | seVxKk x kk => cases h; exact .inr (by rw [State.skipIf_eq]; rfl)
  | sneVxKk x kk => cases h; exact .inr (by rw [State.skipIf_eq]; rfl)
  | seVxVy x y dc => cases h; exact .inr (by rw [State.skipIf_eq]; rfl)
  | sneVxVy x y dc => cases h; exact .inr (by rw [State.skipIf_eq]; rfl)
  | ldVxK x => cases h; cases hk : s.leastKey <;> exact .inr rfl
  | _ => cases h; exact .inr rfl

/-! ### Sprites -/

/-- A sprite row, as it leaves every pixel of the screen. -/
theorem pixel_drawRow (row : Byte) (x0 py : Nat) (acc : Framebuffer × Bool) (x : Fin 64) (y : Fin 32) :
    (drawRow row x0 py acc).1.pixel x y =
      (acc.1.pixel x y ^^ (decide (x0 ≤ x.val) && decide (x.val < x0 + 8) && decide (y.val = py) &&
        spriteBit row (x.val - x0))) := by
  have key : ∀ k, ((List.range k).foldl (fun a c => drawPixel (x0 + c) py (spriteBit row c) a) acc).1.pixel x y =
      (acc.1.pixel x y ^^ (decide (x0 ≤ x.val) && decide (x.val < x0 + k) && decide (y.val = py) &&
        spriteBit row (x.val - x0))) := by
    intro k
    induction k with
    | zero =>
      have : (decide (x0 ≤ x.val) && decide (x.val < x0 + 0)) = false := by
        simp only [Bool.and_eq_false_iff, decide_eq_false_iff_not]; omega
      rw [this, Bool.false_and, Bool.false_and, Bool.xor_false]; rfl
    | succ k ih =>
      rw [List.range_succ, List.foldl_append, List.foldl_cons, List.foldl_nil, pixel_drawPixel, ih]
      by_cases hx : x.val = x0 + k
      · have h1 : ¬ x.val < x0 + k := by omega
        have h2 : x.val < x0 + (k + 1) := by omega
        have h3 : x0 ≤ x.val := by omega
        have h4 : x.val - x0 = k := by omega
        have h5 : x0 ≤ x0 + k := by omega
        simp [hx, h5]
      · have : decide (x.val < x0 + (k + 1)) = decide (x.val < x0 + k) := by
          simp only [decide_eq_decide]; omega
        simp [this, hx]
  exact key 8

/-- A sprite row's collision report. -/
theorem hit_drawRow (row : Byte) (x0 py : Nat) (acc : Framebuffer × Bool) :
    (drawRow row x0 py acc).2 = true ↔ acc.2 = true ∨ ∃ (x : Fin 64) (y : Fin 32),
      (x0 ≤ x.val ∧ x.val < x0 + 8 ∧ y.val = py ∧ spriteBit row (x.val - x0) = true) ∧ acc.1.pixel x y = true := by
  have pix : ∀ k (x : Fin 64) (y : Fin 32), x0 + k ≤ x.val →
      ((List.range k).foldl (fun a c => drawPixel (x0 + c) py (spriteBit row c) a) acc).1.pixel x y = acc.1.pixel x y := by
    intro k x y
    induction k with
    | zero => intro _; rfl
    | succ k ih =>
      intro hk
      rw [List.range_succ, List.foldl_append, List.foldl_cons, List.foldl_nil, pixel_drawPixel, ih (by omega)]
      simp [show x.val ≠ x0 + k by omega]
  have key : ∀ k, ((List.range k).foldl (fun a c => drawPixel (x0 + c) py (spriteBit row c) a) acc).2 = true ↔
      acc.2 = true ∨ ∃ (x : Fin 64) (y : Fin 32),
        (x0 ≤ x.val ∧ x.val < x0 + k ∧ y.val = py ∧ spriteBit row (x.val - x0) = true) ∧ acc.1.pixel x y = true := by
    intro k
    induction k with
    | zero =>
      simp only [List.range_zero, List.foldl_nil]
      constructor
      · exact .inl
      · rintro (h | ⟨x, y, ⟨h1, h2, -, -⟩, -⟩)
        · exact h
        · omega
    | succ k ih =>
      rw [List.range_succ, List.foldl_append, List.foldl_cons, List.foldl_nil, hit_drawPixel, ih]
      constructor
      · rintro ((h | ⟨x, y, ⟨h1, h2, h3, h4⟩, h5⟩) | ⟨x, y, hx, hy, hp, hb⟩)
        · exact .inl h
        · exact .inr ⟨x, y, ⟨h1, by omega, h3, h4⟩, h5⟩
        · rw [pix k x y (by omega)] at hp
          exact .inr ⟨x, y, ⟨by omega, by omega, hy, by rw [show x.val - x0 = k by omega]; exact hb⟩, hp⟩
      · rintro (h | ⟨x, y, ⟨h1, h2, h3, h4⟩, h5⟩)
        · exact .inl (.inl h)
        · by_cases hk : x.val < x0 + k
          · exact .inl (.inr ⟨x, y, ⟨h1, hk, h3, h4⟩, h5⟩)
          · refine .inr ⟨x, y, by omega, h3, ?_, ?_⟩
            · rw [pix k x y (by omega)]; exact h5
            · rw [show k = x.val - x0 by omega]; exact h4
  exact key 8

/-- The sprite's on bits on the screen, as a Bool: column and row covered, and the bit of the row's byte. -/
def spriteOn (m : Memory) (base n x0 y0 : Nat) (x : Fin 64) (y : Fin 32) : Bool :=
  decide (x0 ≤ x.val) && decide (x.val < x0 + 8) && decide (y0 ≤ y.val) && decide (y.val < y0 + n) &&
    spriteBit (m.read (base + (y.val - y0))) (x.val - x0)

/-- `spriteOn` one row longer, from the row drawn last. -/
theorem spriteOn_succ (m : Memory) (base k x0 y0 : Nat) (x : Fin 64) (y : Fin 32) :
    spriteOn m base (k + 1) x0 y0 x y = (spriteOn m base k x0 y0 x y ^^
      (decide (x0 ≤ x.val) && decide (x.val < x0 + 8) && decide (y.val = y0 + k) &&
        spriteBit (m.read (base + k)) (x.val - x0))) := by
  by_cases hy : y.val = y0 + k
  · simp [spriteOn, hy]
  · have : decide (y.val < y0 + (k + 1)) = decide (y.val < y0 + k) := by simp only [decide_eq_decide]; omega
    simp [spriteOn, hy, this]

/-- The whole sprite, as it leaves every pixel: XOR with its on bits (44_display.md R273). -/
theorem pixel_drawSprite (m : Memory) (base n x0 y0 : Nat) (fb : Framebuffer) (x : Fin 64) (y : Fin 32) :
    (drawSprite m base n x0 y0 fb).1.pixel x y = (fb.pixel x y ^^ spriteOn m base n x0 y0 x y) := by
  unfold drawSprite
  induction n with
  | zero =>
    have : (decide (y0 ≤ y.val) && decide (y.val < y0 + 0)) = false := by
      simp only [Bool.and_eq_false_iff, decide_eq_false_iff_not]; omega
    simp only [List.range_zero, List.foldl_nil, spriteOn, Bool.and_assoc]
    rw [← Bool.and_assoc (decide (y0 ≤ y.val)), this]; simp
  | succ k ih =>
    rw [List.range_succ, List.foldl_append, List.foldl_cons, List.foldl_nil, pixel_drawRow, ih, spriteOn_succ,
      Bool.xor_assoc]

/-- The whole sprite's collision report: some on bit met an on pixel (44_display.md R273). -/
theorem hit_drawSprite (m : Memory) (base n x0 y0 : Nat) (fb : Framebuffer) :
    (drawSprite m base n x0 y0 fb).2 = true ↔
      ∃ (x : Fin 64) (y : Fin 32), spriteOn m base n x0 y0 x y = true ∧ fb.pixel x y = true := by
  induction n with
  | zero =>
    constructor
    · intro h; simp [drawSprite] at h
    · rintro ⟨x, y, h, -⟩
      simp only [spriteOn, Bool.and_eq_true, decide_eq_true_eq] at h; omega
  | succ k ih =>
    have pix := pixel_drawSprite m base k x0 y0 fb
    unfold drawSprite at ih pix ⊢
    rw [List.range_succ, List.foldl_append, List.foldl_cons, List.foldl_nil, hit_drawRow, ih]
    constructor
    · rintro (⟨x, y, h, hp⟩ | ⟨x, y, ⟨h1, h2, h3, h4⟩, h5⟩)
      · refine ⟨x, y, ?_, hp⟩
        have hy : y.val ≠ y0 + k := by
          simp only [spriteOn, Bool.and_eq_true, decide_eq_true_eq] at h; omega
        rw [spriteOn_succ, h]; simp [hy]
      · have hn : spriteOn m base k x0 y0 x y = false := by
          have : decide (y.val < y0 + k) = false := by simp only [decide_eq_false_iff_not]; omega
          simp [spriteOn, this]
        rw [pix, hn, Bool.xor_false] at h5
        exact ⟨x, y, by rw [spriteOn_succ, hn]; simp [h1, h2, h3, h4], h5⟩
    · rintro ⟨x, y, h, hp⟩
      by_cases hy : y.val = y0 + k
      · have hn : spriteOn m base k x0 y0 x y = false := by
          have : decide (y.val < y0 + k) = false := by simp only [decide_eq_false_iff_not]; omega
          simp [spriteOn, this]
        rw [spriteOn_succ, hn] at h
        simp only [Bool.false_xor, Bool.and_eq_true, decide_eq_true_eq] at h
        refine .inr ⟨x, y, ⟨h.1.1.1, h.1.1.2, h.1.2, h.2⟩, ?_⟩
        rw [pix, hn, Bool.xor_false]; exact hp
      · refine .inl ⟨x, y, ?_, hp⟩
        rw [spriteOn_succ] at h; simpa [hy] using h

/-- The predicate claims use is `spriteOn` at the instruction's operands. -/
theorem spriteAt_iff (s : State) (x y : Reg) (n : Nibble) (px : Fin 64) (py : Fin 32) :
    spriteAt s x y n px py ↔
      spriteOn s.mem s.i.toNat n.toNat (startColumn (s.reg x)) (startRow (s.reg y)) px py = true := by
  simp only [spriteOn, Bool.and_eq_true, decide_eq_true_eq, and_assoc]
  exact Iff.rfl

/-! ### The end of a step, field by field -/

theorem State.finish_of_faulted {s : State} (h : s.faulted = true) : ∃ k r p n, s.finish =
    { s with locals := StepLocals.idle, keyIn := k, rndIn := r, pending := p, tick := n, loadClosed := true } := by
  have := State.finish_eq s
  rwa [State.endPhases_faulted h] at this

theorem State.finish_of_ok {s : State} (h : s.faulted = false) : ∃ k r p n, s.finish =
    { s with dt := countDown s.dt, st := countDown s.st, toneEdge := s.st == 1,
             status := if s.locals.blocked then statusBlocked else statusOk,
             locals := StepLocals.idle, keyIn := k, rndIn := r, pending := p, tick := n, loadClosed := true } := by
  have := State.finish_eq s
  rw [State.endPhases_ok h] at this
  exact this

theorem toNat_countDown (t : Byte) : (countDown t).toNat = t.toNat - 1 := by
  simp only [countDown]
  split
  next h => simp [h]
  next h =>
    have : t.toNat ≠ 0 := fun e => h (BitVec.eq_of_toNat_eq (by simpa using e))
    have := t.isLt
    rw [BitVec.toNat_sub]; simp; omega

/-! ### The decoder at the program counter -/

theorem decode_fetchBytes_insn (s : State) (i : Instr) :
    decode s.fetchBytes = .insn i [] ↔ decodeWord (s.wordAt s.pc.toNat) = .insn i := by
  simp only [State.fetchBytes, decode, State.wordAt_eq]
  split <;> simp_all

theorem decode_fetchBytes_miss (s : State) (m : Miss) :
    decode s.fetchBytes = .miss m [] ↔ decodeWord (s.wordAt s.pc.toNat) = .miss m := by
  simp only [State.fetchBytes, decode, State.wordAt_eq]
  split <;> simp_all

/-- A step of a block that is not faulted, with its fetch inside memory. -/
theorem step_ok {s : State} (hf : s.faulted = false) (hp : s.pc.toNat + 1 ≤ 0xFFF) :
    step s = Result.map State.finish (execWord s.begin.fetched) := by
  have hnf : s.begin.fetched.faulted = false := hf
  rw [step, if_neg (by simp [hf]), State.fetch_ok (s := s.begin) hp, execFetched, hnf]; rfl

/-- A step of a block that is not faulted, with its fetch outside memory. -/
theorem step_fetchFault {s : State} (hf : s.faulted = false) (hp : 0xFFF < s.pc.toNat + 1) :
    step s = .next (s.begin.raise .fetchRange (firstOutside s.pc)).finish := by
  rw [step, if_neg (by simp [hf]), State.fetch_fault (s := s.begin) hp, execFetched, State.raise_faulted]; rfl

/-- A step of a faulted block. -/
theorem step_faulted {s : State} (hf : s.faulted = true) : step s = .next s.inert.finish := by
  rw [step, if_pos hf]

end Sys2Proof.Machine
end

