-- ==== Sys2Proof/Laws/Frames.lean ====
section
/-! SUPPORT. Frames of the shared updates, fault entry as `TrapEntry`, the parts after the end of a step, and the equation
of each meaning that goes through a check: what a proof about one instruction is assembled from. -/

namespace Sys2Proof.Machine

/-! ### Frames of the updates -/

theorem RegsBut.setReg (s : State) (x : Reg) (b : Byte) : RegsBut (· = x) s (s.setReg x b) := by
  intro r hr; rw [State.reg_setReg, if_neg hr]

theorem RegsBut.setRegFlag (s : State) (x : Reg) (b : Byte) (f : Bool) :
    RegsBut (fun r => r = x ∨ r = 15) s (s.setRegFlag x b f) := by
  intro r hr
  rw [not_or] at hr
  rw [State.reg_setRegFlag, if_neg (show ¬ r = vf from hr.2), if_neg hr.1]

theorem State.reg_setReg_same (s : State) (x : Reg) (b : Byte) : (s.setReg x b).reg x = b := by
  rw [State.reg_setReg, if_pos rfl]

theorem State.reg_setRegFlag_vf (s : State) (x : Reg) (b : Byte) (f : Bool) :
    (s.setRegFlag x b f).reg 15 = flagByte f := by
  rw [State.reg_setRegFlag, if_pos (show (15 : Reg) = vf from rfl)]

theorem State.reg_setRegFlag_dest (s : State) (x : Reg) (b : Byte) (f : Bool) (h : x ≠ 15) :
    (s.setRegFlag x b f).reg x = b := by
  rw [State.reg_setRegFlag, if_neg (show ¬ x = vf from h), if_pos rfl]

theorem toNat_flagByte (c : Bool) : (flagByte c).toNat = if c then 1 else 0 := by cases c <;> rfl

theorem toNat_addrOperand (nnn : Addr12) : (addrOperand nnn).toNat = nnn.toNat := by
  have := nnn.isLt
  simp only [addrOperand, BitVec.toNat_setWidth]; omega

theorem toNat_wordOperand (b : Byte) : (wordOperand b).toNat = b.toNat := by
  have := b.isLt
  simp only [wordOperand, BitVec.toNat_setWidth]; omega

theorem Frame.setReg (s : State) (x : Reg) (b : Byte) : Frame [.regs] s (s.setReg x b) := by
  intro p hp
  cases p with
  | regs => exact absurd (by decide) hp
  | index => exact rfl
  | pc => exact rfl
  | sp => exact rfl
  | stack => exact fun _ => rfl
  | dt => exact rfl
  | st => exact rfl
  | fb => exact fun _ _ => rfl
  | key => exact rfl
  | op => exact rfl
  | faultRecord => exact ⟨rfl, rfl, rfl, rfl⟩
  | status => exact rfl
  | tone => exact rfl
  | mem => exact fun _ => rfl
  | ports => exact ⟨rfl, rfl, rfl, rfl, rfl⟩
  | locals => exact rfl

theorem Frame.setPc (s : State) (a : Word) : Frame [.pc] s (s.setPc a) := by
  intro p hp
  cases p with
  | regs => exact fun _ => rfl
  | index => exact rfl
  | pc => exact absurd (by decide) hp
  | sp => exact rfl
  | stack => exact fun _ => rfl
  | dt => exact rfl
  | st => exact rfl
  | fb => exact fun _ _ => rfl
  | key => exact rfl
  | op => exact rfl
  | faultRecord => exact ⟨rfl, rfl, rfl, rfl⟩
  | status => exact rfl
  | tone => exact rfl
  | mem => exact fun _ => rfl
  | ports => exact ⟨rfl, rfl, rfl, rfl, rfl⟩
  | locals => exact rfl

theorem Frame.setI (s : State) (a : Word) : Frame [.index] s (s.setI a) := by
  intro p hp
  cases p with
  | regs => exact fun _ => rfl
  | index => exact absurd (by decide) hp
  | pc => exact rfl
  | sp => exact rfl
  | stack => exact fun _ => rfl
  | dt => exact rfl
  | st => exact rfl
  | fb => exact fun _ _ => rfl
  | key => exact rfl
  | op => exact rfl
  | faultRecord => exact ⟨rfl, rfl, rfl, rfl⟩
  | status => exact rfl
  | tone => exact rfl
  | mem => exact fun _ => rfl
  | ports => exact ⟨rfl, rfl, rfl, rfl, rfl⟩
  | locals => exact rfl

theorem Frame.setMem (s : State) (m : Memory) : Frame [.mem] s (s.setMem m) := by
  intro p hp
  cases p with
  | regs => exact fun _ => rfl
  | index => exact rfl
  | pc => exact rfl
  | sp => exact rfl
  | stack => exact fun _ => rfl
  | dt => exact rfl
  | st => exact rfl
  | fb => exact fun _ _ => rfl
  | key => exact rfl
  | op => exact rfl
  | faultRecord => exact ⟨rfl, rfl, rfl, rfl⟩
  | status => exact rfl
  | tone => exact rfl
  | mem => exact absurd (by decide) hp
  | ports => exact ⟨rfl, rfl, rfl, rfl, rfl⟩
  | locals => exact rfl

theorem Frame.setFb (s : State) (f : Framebuffer) : Frame [.fb] s (s.setFb f) := by
  intro p hp
  cases p with
  | regs => exact fun _ => rfl
  | index => exact rfl
  | pc => exact rfl
  | sp => exact rfl
  | stack => exact fun _ => rfl
  | dt => exact rfl
  | st => exact rfl
  | fb => exact absurd (by decide) hp
  | key => exact rfl
  | op => exact rfl
  | faultRecord => exact ⟨rfl, rfl, rfl, rfl⟩
  | status => exact rfl
  | tone => exact rfl
  | mem => exact fun _ => rfl
  | ports => exact ⟨rfl, rfl, rfl, rfl, rfl⟩
  | locals => exact rfl

theorem Frame.setDt (s : State) (b : Byte) : Frame [.dt] s (s.setDt b) := by
  intro p hp
  cases p with
  | regs => exact fun _ => rfl
  | index => exact rfl
  | pc => exact rfl
  | sp => exact rfl
  | stack => exact fun _ => rfl
  | dt => exact absurd (by decide) hp
  | st => exact rfl
  | fb => exact fun _ _ => rfl
  | key => exact rfl
  | op => exact rfl
  | faultRecord => exact ⟨rfl, rfl, rfl, rfl⟩
  | status => exact rfl
  | tone => exact rfl
  | mem => exact fun _ => rfl
  | ports => exact ⟨rfl, rfl, rfl, rfl, rfl⟩
  | locals => exact rfl

theorem Frame.setSt (s : State) (b : Byte) : Frame [.st] s (s.setSt b) := by
  intro p hp
  cases p with
  | regs => exact fun _ => rfl
  | index => exact rfl
  | pc => exact rfl
  | sp => exact rfl
  | stack => exact fun _ => rfl
  | dt => exact rfl
  | st => exact absurd (by decide) hp
  | fb => exact fun _ _ => rfl
  | key => exact rfl
  | op => exact rfl
  | faultRecord => exact ⟨rfl, rfl, rfl, rfl⟩
  | status => exact rfl
  | tone => exact rfl
  | mem => exact fun _ => rfl
  | ports => exact ⟨rfl, rfl, rfl, rfl, rfl⟩
  | locals => exact rfl

theorem Frame.setStack (s : State) (k : Vector Word 16) (n : BitVec 8) : Frame [.sp, .stack] s (s.setStack k n) := by
  intro p hp
  cases p with
  | regs => exact fun _ => rfl
  | index => exact rfl
  | pc => exact rfl
  | sp => exact absurd (by decide) hp
  | stack => exact absurd (by decide) hp
  | dt => exact rfl
  | st => exact rfl
  | fb => exact fun _ _ => rfl
  | key => exact rfl
  | op => exact rfl
  | faultRecord => exact ⟨rfl, rfl, rfl, rfl⟩
  | status => exact rfl
  | tone => exact rfl
  | mem => exact fun _ => rfl
  | ports => exact ⟨rfl, rfl, rfl, rfl, rfl⟩
  | locals => exact rfl

theorem Frame.raise (s : State) (c : FaultCause) (w : Word) : Frame [.pc, .op, .faultRecord, .status, .tone] s (s.raise c w) := by
  intro p hp
  cases p with
  | regs => exact fun _ => rfl
  | index => exact rfl
  | pc => exact absurd (by decide) hp
  | sp => exact rfl
  | stack => exact fun _ => rfl
  | dt => exact rfl
  | st => exact rfl
  | fb => exact fun _ _ => rfl
  | key => exact rfl
  | op => exact absurd (by decide) hp
  | faultRecord => exact absurd (by decide) hp
  | status => exact absurd (by decide) hp
  | tone => exact absurd (by decide) hp
  | mem => exact fun _ => rfl
  | ports => exact ⟨rfl, rfl, rfl, rfl, rfl⟩
  | locals => exact rfl

theorem Frame.begin_fetched (s : State) : Frame [.pc, .key, .op, .locals] s s.begin.fetched := by
  intro p hp
  cases p with
  | regs => exact fun _ => rfl
  | index => exact rfl
  | pc => exact absurd (by decide) hp
  | sp => exact rfl
  | stack => exact fun _ => rfl
  | dt => exact rfl
  | st => exact rfl
  | fb => exact fun _ _ => rfl
  | key => exact absurd (by decide) hp
  | op => exact absurd (by decide) hp
  | faultRecord => exact ⟨rfl, rfl, rfl, rfl⟩
  | status => exact rfl
  | tone => exact rfl
  | mem => exact fun _ => rfl
  | ports => exact ⟨rfl, rfl, rfl, rfl, rfl⟩
  | locals => exact absurd (by decide) hp

theorem Frame.inert (s : State) : Frame [.status, .tone] s s.inert := by
  intro p hp
  cases p with
  | regs => exact fun _ => rfl
  | index => exact rfl
  | pc => exact rfl
  | sp => exact rfl
  | stack => exact fun _ => rfl
  | dt => exact rfl
  | st => exact rfl
  | fb => exact fun _ _ => rfl
  | key => exact rfl
  | op => exact rfl
  | faultRecord => exact ⟨rfl, rfl, rfl, rfl⟩
  | status => exact absurd (by decide) hp
  | tone => exact absurd (by decide) hp
  | mem => exact fun _ => rfl
  | ports => exact ⟨rfl, rfl, rfl, rfl, rfl⟩
  | locals => exact rfl

/-! ### Composing frames -/

theorem Part.same_trans {p : Part} {s t u : State} (h1 : p.same s t) (h2 : p.same t u) : p.same s u := by
  cases p with
  | regs => exact fun r => (h2 r).trans (h1 r)
  | stack => exact fun j => (h2 j).trans (h1 j)
  | mem => exact fun a => (h2 a).trans (h1 a)
  | fb => exact fun x y => (h2 x y).trans (h1 x y)
  | faultRecord => exact ⟨h2.1.trans h1.1, h2.2.1.trans h1.2.1, h2.2.2.1.trans h1.2.2.1, h2.2.2.2.trans h1.2.2.2⟩
  | ports =>
    exact ⟨h2.1.trans h1.1, h2.2.1.trans h1.2.1, h2.2.2.1.trans h1.2.2.1, h2.2.2.2.1.trans h1.2.2.2.1, h2.2.2.2.2.trans h1.2.2.2.2⟩
  | _ => exact Eq.trans h2 h1

/-- A frame after a frame: what either may change, the two together may change. -/
theorem Frame.trans {ps qs rs : List Part} {s t u : State} (h1 : Frame ps s t) (h2 : Frame qs t u)
    (hp : ∀ p, p ∈ ps → p ∈ rs) (hq : ∀ p, p ∈ qs → p ∈ rs) : Frame rs s u :=
  fun p hn => Part.same_trans (h1 p (fun h => hn (hp p h))) (h2 p (fun h => hn (hq p h)))

theorem Frame.setRegFlag (s : State) (x : Reg) (b : Byte) (f : Bool) : Frame [.regs] s (s.setRegFlag x b f) :=
  (Frame.setReg s x b).trans (Frame.setReg _ vf _) (fun _ h => h) (fun _ h => h)

/-- A frame may be widened. -/
theorem Frame.mono {ps rs : List Part} {s t : State} (h : Frame ps s t) (hp : ∀ p, p ∈ ps → p ∈ rs) : Frame rs s t :=
  fun p hn => h p (fun e => hn (hp p e))

/-- The frame of the end of a step that faulted or was inert. -/
theorem Frame.finish_of_faulted {s : State} (h : s.faulted = true) : Frame [.ports, .locals] s s.finish := by
  obtain ⟨k, r, q, n, e⟩ := State.finish_of_faulted h
  rw [e]
  intro p hp
  cases p with
  | ports => exact absurd (by decide) hp
  | locals => exact absurd (by decide) hp
  | regs => exact fun _ => rfl
  | stack => exact fun _ => rfl
  | mem => exact fun _ => rfl
  | fb => exact fun _ _ => rfl
  | faultRecord => exact ⟨rfl, rfl, rfl, rfl⟩
  | _ => rfl

/-- The frame of the end of a step that did not fault. -/
theorem Frame.finish_of_ok {s : State} (h : s.faulted = false) :
    Frame [.dt, .st, .tone, .status, .ports, .locals] s s.finish := by
  obtain ⟨k, r, q, n, e⟩ := State.finish_of_ok h
  rw [e]
  intro p hp
  cases p with
  | dt => exact absurd (by decide) hp
  | st => exact absurd (by decide) hp
  | tone => exact absurd (by decide) hp
  | status => exact absurd (by decide) hp
  | ports => exact absurd (by decide) hp
  | locals => exact absurd (by decide) hp
  | regs => exact fun _ => rfl
  | stack => exact fun _ => rfl
  | mem => exact fun _ => rfl
  | fb => exact fun _ _ => rfl
  | faultRecord => exact ⟨rfl, rfl, rfl, rfl⟩
  | _ => rfl

/-- Every fault entry of the execute phase is a `TrapEntry`. -/
theorem TrapEntry.raise (s : State) {c : FaultCause} (hc : c ≠ .fetchRange) (w : Word) :
    TrapEntry c.code w s (s.raise c w) :=
  ⟨rfl, rfl, if_neg hc, rfl, rfl, rfl, rfl, rfl, Frame.raise s c w⟩

/-! ### The meanings that go through a check -/

theorem exec_ret (dc : BitVec 8) (s : State) : exec (.ret dc) s = s.pop (fun a t => t.setPc a) := rfl

theorem exec_call (nnn : Addr12) (s : State) :
    exec (.call nnn) s = s.push s.pc (fun t => t.setPc (addrOperand nnn)) := rfl

theorem exec_drw (x y : Reg) (n : Nibble) (s : State) :
    exec (.drw x y n) s = s.checkRange n.toNat (fun t => t.draw x y n) := rfl

theorem exec_ldBVx (x : Reg) (s : State) :
    exec (.ldBVx x) s = s.checkRange 3 (fun t => t.setMem (t.mem.writeAll t.i.toNat (decimalDigits (t.reg x)))) := rfl

theorem exec_ldMemVx (x : Reg) (s : State) :
    exec (.ldMemVx x) s = s.checkRange (blockCount x) (fun t => t.setMem (t.mem.writeAll t.i.toNat (t.block x))) := rfl

theorem exec_ldVxMem (x : Reg) (s : State) :
    exec (.ldVxMem x) s = s.checkRange (blockCount x) (fun t => t.loadBlock (blockCount x)) := rfl

theorem exec_skp (x : Reg) (dc : Nibble) (s : State) :
    exec (.skp x dc) s = s.checkIndex .keyRange (s.reg x) (fun k t => t.skipIf (t.keyDown k)) := rfl

theorem exec_sknp (x : Reg) (dc : Nibble) (s : State) :
    exec (.sknp x dc) s = s.checkIndex .keyRange (s.reg x) (fun k t => t.skipIf (!t.keyDown k)) := rfl

theorem exec_ldFVx (x : Reg) (s : State) :
    exec (.ldFVx x) s = s.checkIndex .fontRange (s.reg x) (fun d t => t.setI (glyphAddr d)) := rfl

/-- A range of `count` bytes from `base` lies in memory. -/
theorem outOfRange_false {base : Word} {count : Nat} (h : base.toNat + count ≤ 0x1000 ∨ count = 0) :
    outOfRange base count = false := by
  rw [Bool.eq_false_iff, ne_eq, outOfRange_iff]; omega

/-- A range of `count` bytes from `base` does not lie in memory. -/
theorem outOfRange_true {base : Word} {count : Nat} (h0 : 0 < count) (h : 0xFFF < base.toNat + count - 1) :
    outOfRange base count = true := (outOfRange_iff base count).2 ⟨h0, h⟩

theorem firstOutside_eq (base : Word) : firstOutside base = BitVec.ofNat 16 (max base.toNat 0x1000) := by
  apply BitVec.eq_of_toNat_eq
  have := base.isLt
  rw [firstOutside_toNat, BitVec.toNat_ofNat]; omega

/-! ### What every instruction keeps -/

/-- Every instruction keeps memory in canonical form. -/
theorem exec_mem_wf {i : Instr} {s t : State} (h : exec i s = .next t) (hm : s.mem.wf = true) : t.mem.wf = true := by
  cases i with
  | ret dc =>
    rw [exec_ret] at h
    rcases State.pop_cases h with ⟨_, _, rfl⟩ | ⟨_, rfl⟩ <;> exact hm
  | call nnn =>
    rw [exec_call] at h
    rcases State.push_cases h with ⟨_, rfl⟩ | ⟨_, rfl⟩ <;> exact hm
  | drw x y n =>
    rw [exec_drw] at h
    rcases State.checkRange_cases h with ⟨_, rfl⟩ | ⟨_, rfl⟩ <;> exact hm
  | ldBVx x =>
    rw [exec_ldBVx] at h
    rcases State.checkRange_cases h with ⟨_, rfl⟩ | ⟨_, rfl⟩
    · exact Memory.wf_writeAll _ _ _ hm
    · exact hm
  | ldMemVx x =>
    rw [exec_ldMemVx] at h
    rcases State.checkRange_cases h with ⟨_, rfl⟩ | ⟨_, rfl⟩
    · exact Memory.wf_writeAll _ _ _ hm
    · exact hm
  | ldVxMem x =>
    rw [exec_ldVxMem] at h
    rcases State.checkRange_cases h with ⟨_, rfl⟩ | ⟨_, rfl⟩
    · rw [State.loadBlock_eq]; exact hm
    · exact hm
  | skp x dc =>
    rw [exec_skp] at h
    rcases State.checkIndex_cases h with ⟨_, rfl⟩ | ⟨_, rfl⟩
    · rw [State.skipIf_eq]; exact hm
    · exact hm
  | sknp x dc =>
    rw [exec_sknp] at h
    rcases State.checkIndex_cases h with ⟨_, rfl⟩ | ⟨_, rfl⟩
    · rw [State.skipIf_eq]; exact hm
    · exact hm
  | ldFVx x =>
    rw [exec_ldFVx] at h
    rcases State.checkIndex_cases h with ⟨_, rfl⟩ | ⟨_, rfl⟩ <;> exact hm
  | seVxKk x kk => cases h; rw [State.skipIf_eq]; exact hm
  | sneVxKk x kk => cases h; rw [State.skipIf_eq]; exact hm
  | seVxVy x y dc => cases h; rw [State.skipIf_eq]; exact hm
  | sneVxVy x y dc => cases h; rw [State.skipIf_eq]; exact hm
  | ldVxK x => cases h; cases hk : s.leastKey <;> exact hm
  | _ => cases h; exact hm

/-- Every instruction keeps the stack pointer at most 16. -/
theorem exec_sp_le {i : Instr} {s t : State} (h : exec i s = .next t) (hm : s.sp.toNat ≤ 16) : t.sp.toNat ≤ 16 := by
  cases i with
  | ret dc =>
    rw [exec_ret] at h; rcases State.pop_cases h with ⟨a, b, rfl⟩ | ⟨_, rfl⟩
    · have : s.sp.toNat ≠ 0 := fun e => b (BitVec.eq_of_toNat_eq e)
      rw [State.setPc_sp, State.setStack_sp, BitVec.toNat_sub]; simp; omega
    · exact hm
  | call nnn =>
    rw [exec_call] at h; rcases State.push_cases h with ⟨_, rfl⟩ | ⟨_, rfl⟩
    · rw [State.setPc_sp, State.setStack_sp, BitVec.toNat_add]; simp; omega
    · exact hm
  | drw x y n =>
    rw [exec_drw] at h
    rcases State.checkRange_cases h with ⟨_, rfl⟩ | ⟨_, rfl⟩ <;> exact hm
  | ldBVx x =>
    rw [exec_ldBVx] at h
    rcases State.checkRange_cases h with ⟨_, rfl⟩ | ⟨_, rfl⟩ <;> exact hm
  | ldMemVx x =>
    rw [exec_ldMemVx] at h
    rcases State.checkRange_cases h with ⟨_, rfl⟩ | ⟨_, rfl⟩ <;> exact hm
  | ldVxMem x =>
    rw [exec_ldVxMem] at h
    rcases State.checkRange_cases h with ⟨_, rfl⟩ | ⟨_, rfl⟩
    · rw [State.loadBlock_eq]; exact hm
    · exact hm
  | skp x dc =>
    rw [exec_skp] at h
    rcases State.checkIndex_cases h with ⟨_, rfl⟩ | ⟨_, rfl⟩
    · rw [State.skipIf_eq]; exact hm
    · exact hm
  | sknp x dc =>
    rw [exec_sknp] at h
    rcases State.checkIndex_cases h with ⟨_, rfl⟩ | ⟨_, rfl⟩
    · rw [State.skipIf_eq]; exact hm
    · exact hm
  | ldFVx x =>
    rw [exec_ldFVx] at h
    rcases State.checkIndex_cases h with ⟨_, rfl⟩ | ⟨_, rfl⟩ <;> exact hm
  | seVxKk x kk => cases h; rw [State.skipIf_eq]; exact hm
  | sneVxKk x kk => cases h; rw [State.skipIf_eq]; exact hm
  | seVxVy x y dc => cases h; rw [State.skipIf_eq]; exact hm
  | sneVxVy x y dc => cases h; rw [State.skipIf_eq]; exact hm
  | ldVxK x => cases h; cases hk : s.leastKey <;> exact hm
  | _ => cases h; exact hm

end Sys2Proof.Machine
end

