-- ==== Sys2Proof/Laws/PerInstr.lean ====
section
/-! SUPPORT. The per-instruction family `OpcodeRow`: the word of every instruction carries the fixed bits of its row of
spec/opcode_table.json, `word &&& mask = match`, with every operand and don't-care bit at every value. -/

namespace Sys2Proof.Laws

/-! ### The fixed bits of each layout -/

theorem and_ones4 (n : Nibble) : n &&& 15#4 = n := by
  rw [show (15#4 : Nibble) = BitVec.allOnes 4 from rfl, BitVec.and_allOnes]

theorem and_ones8 (b : Byte) : b &&& 255#8 = b := by
  rw [show (255#8 : Byte) = BitVec.allOnes 8 from rfl, BitVec.and_allOnes]

theorem packXyn_class (c x y n : Nibble) : packXyn c x y n &&& 0xF000#16 = packXyn c 0 0 0 := by
  show (c ++ x ++ y ++ n : BitVec 16) &&& (0xF#4 ++ 0#4 ++ 0#4 ++ 0#4 : BitVec 16) = _
  rw [BitVec.and_append, BitVec.and_append, BitVec.and_append]; simp [packXyn, and_ones4]

theorem packXyn_class_key (c x y n : Nibble) : packXyn c x y n &&& 0xF00F#16 = packXyn c 0 0 n := by
  show (c ++ x ++ y ++ n : BitVec 16) &&& (0xF#4 ++ 0#4 ++ 0#4 ++ 0xF#4 : BitVec 16) = _
  rw [BitVec.and_append, BitVec.and_append, BitVec.and_append]; simp [packXyn, and_ones4]

theorem packXkk_class (c x : Nibble) (kk : Byte) : packXkk c x kk &&& 0xF000#16 = packXkk c 0 0 := by
  show (c ++ x ++ kk : BitVec 16) &&& (0xF#4 ++ 0#4 ++ 0#8 : BitVec 16) = _
  rw [BitVec.and_append, BitVec.and_append]; simp [packXkk, and_ones4]

theorem packXkk_class_key (c x : Nibble) (kk : Byte) : packXkk c x kk &&& 0xF0FF#16 = packXkk c 0 kk := by
  show (c ++ x ++ kk : BitVec 16) &&& (0xF#4 ++ 0#4 ++ 0xFF#8 : BitVec 16) = _
  rw [BitVec.and_append, BitVec.and_append]; simp [packXkk, and_ones4, and_ones8]

theorem packNnn_class (c : Nibble) (nnn : Addr12) : packNnn c nnn &&& 0xF000#16 = packNnn c 0 := by
  show (c ++ nnn : BitVec 16) &&& (0xF#4 ++ 0#12 : BitVec 16) = _
  rw [BitVec.and_append]; simp [packNnn, and_ones4]

theorem packDc0_class_key (dc : BitVec 8) (n : Nibble) : packDc0 dc n &&& 0xF00F#16 = packDc0 0 n := by
  show (0x0#4 ++ dc ++ n : BitVec 16) &&& (0xF#4 ++ 0#8 ++ 0xF#4 : BitVec 16) = _
  rw [BitVec.and_append, BitVec.and_append]; simp [packDc0, and_ones4]

/-! ### The rows of spec/opcode_table.json -/

/-- The "mask" of an instruction's row. -/
def OpcodeRow.mask : Instr → Word
  | .cls _ => 0xF00F
  | .ret _ => 0xF00F
  | .jp _ => 0xF000
  | .call _ => 0xF000
  | .seVxKk _ _ => 0xF000
  | .sneVxKk _ _ => 0xF000
  | .seVxVy _ _ _ => 0xF000
  | .ldVxKk _ _ => 0xF000
  | .addVxKk _ _ => 0xF000
  | .ldVxVy _ _ => 0xF00F
  | .orVxVy _ _ => 0xF00F
  | .andVxVy _ _ => 0xF00F
  | .xorVxVy _ _ => 0xF00F
  | .addVxVy _ _ => 0xF00F
  | .subVxVy _ _ => 0xF00F
  | .shrVx _ _ => 0xF00F
  | .subnVxVy _ _ => 0xF00F
  | .shlVx _ _ => 0xF00F
  | .sneVxVy _ _ _ => 0xF000
  | .ldI _ => 0xF000
  | .jpV0 _ => 0xF000
  | .rnd _ _ => 0xF000
  | .drw _ _ _ => 0xF000
  | .skp _ _ => 0xF00F
  | .sknp _ _ => 0xF00F
  | .ldVxDt _ => 0xF0FF
  | .ldVxK _ => 0xF0FF
  | .ldDtVx _ => 0xF0FF
  | .ldStVx _ => 0xF0FF
  | .addIVx _ => 0xF0FF
  | .ldFVx _ => 0xF0FF
  | .ldBVx _ => 0xF0FF
  | .ldMemVx _ => 0xF0FF
  | .ldVxMem _ => 0xF0FF

/-- The "match" of an instruction's row. -/
def OpcodeRow.fixed : Instr → Word
  | .cls _ => 0x0000
  | .ret _ => 0x000E
  | .jp _ => 0x1000
  | .call _ => 0x2000
  | .seVxKk _ _ => 0x3000
  | .sneVxKk _ _ => 0x4000
  | .seVxVy _ _ _ => 0x5000
  | .ldVxKk _ _ => 0x6000
  | .addVxKk _ _ => 0x7000
  | .ldVxVy _ _ => 0x8000
  | .orVxVy _ _ => 0x8001
  | .andVxVy _ _ => 0x8002
  | .xorVxVy _ _ => 0x8003
  | .addVxVy _ _ => 0x8004
  | .subVxVy _ _ => 0x8005
  | .shrVx _ _ => 0x8006
  | .subnVxVy _ _ => 0x8007
  | .shlVx _ _ => 0x800E
  | .sneVxVy _ _ _ => 0x9000
  | .ldI _ => 0xA000
  | .jpV0 _ => 0xB000
  | .rnd _ _ => 0xC000
  | .drw _ _ _ => 0xD000
  | .skp _ _ => 0xE00E
  | .sknp _ _ => 0xE001
  | .ldVxDt _ => 0xF007
  | .ldVxK _ => 0xF00A
  | .ldDtVx _ => 0xF015
  | .ldStVx _ => 0xF018
  | .addIVx _ => 0xF01E
  | .ldFVx _ => 0xF029
  | .ldBVx _ => 0xF033
  | .ldMemVx _ => 0xF055
  | .ldVxMem _ => 0xF065

/-- The word of the instruction has the fixed bits of its row. -/
def OpcodeRow.Statement (i : Instr) : Prop := encode i &&& OpcodeRow.mask i = OpcodeRow.fixed i

theorem OpcodeRow.cls (dc : BitVec 8) : OpcodeRow.Statement (.cls dc) := packDc0_class_key _ _
theorem OpcodeRow.ret (dc : BitVec 8) : OpcodeRow.Statement (.ret dc) := packDc0_class_key _ _
theorem OpcodeRow.jp (nnn : Addr12) : OpcodeRow.Statement (.jp nnn) := packNnn_class _ _
theorem OpcodeRow.call (nnn : Addr12) : OpcodeRow.Statement (.call nnn) := packNnn_class _ _
theorem OpcodeRow.seVxKk (x : Reg) (kk : Byte) : OpcodeRow.Statement (.seVxKk x kk) := packXkk_class _ _ _
theorem OpcodeRow.sneVxKk (x : Reg) (kk : Byte) : OpcodeRow.Statement (.sneVxKk x kk) := packXkk_class _ _ _
theorem OpcodeRow.seVxVy (x y : Reg) (dc : Nibble) : OpcodeRow.Statement (.seVxVy x y dc) := packXyn_class _ _ _ _
theorem OpcodeRow.ldVxKk (x : Reg) (kk : Byte) : OpcodeRow.Statement (.ldVxKk x kk) := packXkk_class _ _ _
theorem OpcodeRow.addVxKk (x : Reg) (kk : Byte) : OpcodeRow.Statement (.addVxKk x kk) := packXkk_class _ _ _
theorem OpcodeRow.ldVxVy (x y : Reg) : OpcodeRow.Statement (.ldVxVy x y) := packXyn_class_key _ _ _ _
theorem OpcodeRow.orVxVy (x y : Reg) : OpcodeRow.Statement (.orVxVy x y) := packXyn_class_key _ _ _ _
theorem OpcodeRow.andVxVy (x y : Reg) : OpcodeRow.Statement (.andVxVy x y) := packXyn_class_key _ _ _ _
theorem OpcodeRow.xorVxVy (x y : Reg) : OpcodeRow.Statement (.xorVxVy x y) := packXyn_class_key _ _ _ _
theorem OpcodeRow.addVxVy (x y : Reg) : OpcodeRow.Statement (.addVxVy x y) := packXyn_class_key _ _ _ _
theorem OpcodeRow.subVxVy (x y : Reg) : OpcodeRow.Statement (.subVxVy x y) := packXyn_class_key _ _ _ _
theorem OpcodeRow.shrVx (x : Reg) (dc : Nibble) : OpcodeRow.Statement (.shrVx x dc) := packXyn_class_key _ _ _ _
theorem OpcodeRow.subnVxVy (x y : Reg) : OpcodeRow.Statement (.subnVxVy x y) := packXyn_class_key _ _ _ _
theorem OpcodeRow.shlVx (x : Reg) (dc : Nibble) : OpcodeRow.Statement (.shlVx x dc) := packXyn_class_key _ _ _ _
theorem OpcodeRow.sneVxVy (x y : Reg) (dc : Nibble) : OpcodeRow.Statement (.sneVxVy x y dc) := packXyn_class _ _ _ _
theorem OpcodeRow.ldI (nnn : Addr12) : OpcodeRow.Statement (.ldI nnn) := packNnn_class _ _
theorem OpcodeRow.jpV0 (nnn : Addr12) : OpcodeRow.Statement (.jpV0 nnn) := packNnn_class _ _
theorem OpcodeRow.rnd (x : Reg) (kk : Byte) : OpcodeRow.Statement (.rnd x kk) := packXkk_class _ _ _
theorem OpcodeRow.drw (x y : Reg) (n : Nibble) : OpcodeRow.Statement (.drw x y n) := packXyn_class _ _ _ _
theorem OpcodeRow.skp (x : Reg) (dc : Nibble) : OpcodeRow.Statement (.skp x dc) := packXyn_class_key _ _ _ _
theorem OpcodeRow.sknp (x : Reg) (dc : Nibble) : OpcodeRow.Statement (.sknp x dc) := packXyn_class_key _ _ _ _
theorem OpcodeRow.ldVxDt (x : Reg) : OpcodeRow.Statement (.ldVxDt x) := packXkk_class_key _ _ _
theorem OpcodeRow.ldVxK (x : Reg) : OpcodeRow.Statement (.ldVxK x) := packXkk_class_key _ _ _
theorem OpcodeRow.ldDtVx (x : Reg) : OpcodeRow.Statement (.ldDtVx x) := packXkk_class_key _ _ _
theorem OpcodeRow.ldStVx (x : Reg) : OpcodeRow.Statement (.ldStVx x) := packXkk_class_key _ _ _
theorem OpcodeRow.addIVx (x : Reg) : OpcodeRow.Statement (.addIVx x) := packXkk_class_key _ _ _
theorem OpcodeRow.ldFVx (x : Reg) : OpcodeRow.Statement (.ldFVx x) := packXkk_class_key _ _ _
theorem OpcodeRow.ldBVx (x : Reg) : OpcodeRow.Statement (.ldBVx x) := packXkk_class_key _ _ _
theorem OpcodeRow.ldMemVx (x : Reg) : OpcodeRow.Statement (.ldMemVx x) := packXkk_class_key _ _ _
theorem OpcodeRow.ldVxMem (x : Reg) : OpcodeRow.Statement (.ldVxMem x) := packXkk_class_key _ _ _

end Sys2Proof.Laws
end

