-- ==== Sys2Proof/Tests/Slice0.lean ====
section
/-! SUPPORT. The model's own tests. Every expected result is the spec's: spec/30_encoding.md for the words,
spec/95_test_vectors.md (W and V numbers) for the steps. The last part holds the witnesses: concrete states that meet
the hypotheses of each statement of Certificates/Slice0/Obligations.lean. -/

namespace Sys2Proof.Tests

open Sys2Proof.Machine

/-! ### Ill-formed instructions are refused -/

/-- `canonicalClass0`: CLS with the don't-care byte 00 is not the assembler's CLS. -/
theorem test_illformed_cls : (Instr.cls 0x00).wellFormed = false := by decide

/-- `canonicalClass0`: RET with the don't-care byte FF. -/
theorem test_illformed_ret : (Instr.ret 0xFF).wellFormed = false := by decide

/-- `canonicalZero`: 5121, 912F, 8126 and 812E have don't-care bits set. -/
theorem test_illformed_zero : (Instr.seVxVy 1 2 1).wellFormed = false ∧ (Instr.sneVxVy 1 2 0xF).wellFormed = false ∧
    (Instr.shrVx 1 2).wellFormed = false ∧ (Instr.shlVx 1 2).wellFormed = false := by decide

/-- `canonicalSkp`: E10E is not the canonical Ex9E. -/
theorem test_illformed_skp : (Instr.skp 1 0).wellFormed = false := by decide

/-- `canonicalSknp`: E1F1 is not the canonical ExA1. -/
theorem test_illformed_sknp : (Instr.sknp 1 0xF).wellFormed = false := by decide

/-! ### Every constructor's word, written out from spec/30_encoding.md R101, R104–R108 -/

/-- 00E0. -/
theorem test_decode_cls : decode [0x00, 0xE0] = .insn (.cls 0x0E) [] := by decide

/-- 00EE. -/
theorem test_decode_ret : decode [0x00, 0xEE] = .insn (.ret 0x0E) [] := by decide

/-- 1nnn. -/
theorem test_decode_jp : decode [0x1A, 0xBC] = .insn (.jp 0xABC) [] := by decide

/-- 2nnn. -/
theorem test_decode_call : decode [0x2A, 0xBC] = .insn (.call 0xABC) [] := by decide

/-- 3xkk. -/
theorem test_decode_seVxKk : decode [0x3A, 0xBC] = .insn (.seVxKk 0xA 0xBC) [] := by decide

/-- 4xkk. -/
theorem test_decode_sneVxKk : decode [0x4A, 0xBC] = .insn (.sneVxKk 0xA 0xBC) [] := by decide

/-- 5xy0. -/
theorem test_decode_seVxVy : decode [0x5A, 0xB0] = .insn (.seVxVy 0xA 0xB 0) [] := by decide

/-- 6xkk. -/
theorem test_decode_ldVxKk : decode [0x6A, 0xBC] = .insn (.ldVxKk 0xA 0xBC) [] := by decide

/-- 7xkk. -/
theorem test_decode_addVxKk : decode [0x7A, 0xBC] = .insn (.addVxKk 0xA 0xBC) [] := by decide

/-- 8xy0. -/
theorem test_decode_ldVxVy : decode [0x8A, 0xB0] = .insn (.ldVxVy 0xA 0xB) [] := by decide

/-- 8xy1. -/
theorem test_decode_orVxVy : decode [0x8A, 0xB1] = .insn (.orVxVy 0xA 0xB) [] := by decide

/-- 8xy2. -/
theorem test_decode_andVxVy : decode [0x8A, 0xB2] = .insn (.andVxVy 0xA 0xB) [] := by decide

/-- 8xy3. -/
theorem test_decode_xorVxVy : decode [0x8A, 0xB3] = .insn (.xorVxVy 0xA 0xB) [] := by decide

/-- 8xy4. -/
theorem test_decode_addVxVy : decode [0x8A, 0xB4] = .insn (.addVxVy 0xA 0xB) [] := by decide

/-- 8xy5. -/
theorem test_decode_subVxVy : decode [0x8A, 0xB5] = .insn (.subVxVy 0xA 0xB) [] := by decide

/-- 8x06. -/
theorem test_decode_shrVx : decode [0x8A, 0x06] = .insn (.shrVx 0xA 0) [] := by decide

/-- 8xy7. -/
theorem test_decode_subnVxVy : decode [0x8A, 0xB7] = .insn (.subnVxVy 0xA 0xB) [] := by decide

/-- 8x0E. -/
theorem test_decode_shlVx : decode [0x8A, 0x0E] = .insn (.shlVx 0xA 0) [] := by decide

/-- 9xy0. -/
theorem test_decode_sneVxVy : decode [0x9A, 0xB0] = .insn (.sneVxVy 0xA 0xB 0) [] := by decide

/-- Annn. -/
theorem test_decode_ldI : decode [0xAA, 0xBC] = .insn (.ldI 0xABC) [] := by decide

/-- Bnnn. -/
theorem test_decode_jpV0 : decode [0xBA, 0xBC] = .insn (.jpV0 0xABC) [] := by decide

/-- Cxkk. -/
theorem test_decode_rnd : decode [0xCA, 0xBC] = .insn (.rnd 0xA 0xBC) [] := by decide

/-- Dxyn. -/
theorem test_decode_drw : decode [0xDA, 0xBC] = .insn (.drw 0xA 0xB 0xC) [] := by decide

/-- Ex9E. -/
theorem test_decode_skp : decode [0xEA, 0x9E] = .insn (.skp 0xA 9) [] := by decide

/-- ExA1. -/
theorem test_decode_sknp : decode [0xEA, 0xA1] = .insn (.sknp 0xA 0xA) [] := by decide

/-- Fx07. -/
theorem test_decode_ldVxDt : decode [0xFA, 0x07] = .insn (.ldVxDt 0xA) [] := by decide

/-- Fx0A. -/
theorem test_decode_ldVxK : decode [0xFA, 0x0A] = .insn (.ldVxK 0xA) [] := by decide

/-- Fx15. -/
theorem test_decode_ldDtVx : decode [0xFA, 0x15] = .insn (.ldDtVx 0xA) [] := by decide

/-- Fx18. -/
theorem test_decode_ldStVx : decode [0xFA, 0x18] = .insn (.ldStVx 0xA) [] := by decide

/-- Fx1E. -/
theorem test_decode_addIVx : decode [0xFA, 0x1E] = .insn (.addIVx 0xA) [] := by decide

/-- Fx29. -/
theorem test_decode_ldFVx : decode [0xFA, 0x29] = .insn (.ldFVx 0xA) [] := by decide

/-- Fx33. -/
theorem test_decode_ldBVx : decode [0xFA, 0x33] = .insn (.ldBVx 0xA) [] := by decide

/-- Fx55. -/
theorem test_decode_ldMemVx : decode [0xFA, 0x55] = .insn (.ldMemVx 0xA) [] := by decide

/-- Fx65. -/
theorem test_decode_ldVxMem : decode [0xFA, 0x65] = .insn (.ldVxMem 0xA) [] := by decide

/-- R109: one miss of each secondary table (V7, V9, V10, V11). -/
theorem test_decode_misses : decode [0x01, 0x23] = .miss (.class0 3) [] ∧ decode [0x80, 0x0F] = .miss (.class8 0xF) [] ∧
    decode [0xE0, 0x00] = .miss (.classE 0) [] ∧ decode [0xF0, 0xFF] = .miss (.classF 0xFF) [] := by decide

/-- R110: words with other don't-care bits decode to the same instruction (V14, V15, V16, V18, V19). -/
theorem test_decode_dontCare : decode [0x00, 0x00] = .insn (.cls 0) [] ∧ decode [0x0F, 0xFE] = .insn (.ret 0xFF) [] ∧
    decode [0x51, 0x21] = .insn (.seVxVy 1 2 1) [] ∧ decode [0xE1, 0x0E] = .insn (.skp 1 0) [] ∧
    decode [0xE1, 0xF1] = .insn (.sknp 1 0xF) [] := by decide

/-- Log entry 10: one byte is no instruction; bytes after the word stay. -/
theorem test_decode_lengths : decode [0x00] = .tooShort ∧ decode [0x13, 0x00, 0x77] = .insn (.jp 0x300) [0x77] := by decide

/-! ### One step -/

/-- The step of a block whose next instruction word is `w`. -/
def runWord (w : Nat) (s : State) : Result := step (s.withFetchWord 16 w)

/-- The answer is a next state with the property. -/
def after (r : Result) (p : State → Bool) : Bool :=
  match r with
  | .next t => p t
  | .fault _ => false
  | .refused _ => false

/-- The state after reset with two registers set. -/
def regs (x : Reg) (a : Byte) (y : Reg) (b : Byte) : State := (State.reset.setReg x a).setReg y b

/-- The state after reset with one register set. -/
def reg1 (x : Reg) (a : Byte) : State := State.reset.setReg x a

/-- The state after reset with `I` set. -/
def atI (i : Word) : State := State.reset.setI i

/-- The state after reset with the stack pointer set. -/
def withSp (n : BitVec 8) : State := State.reset.setStack State.reset.stack n

/-- A stack with one entry set. -/
def stackWith (j : Fin 16) (a : Word) : Vector Word 16 := State.reset.stack.set j a

/-- The state after reset with these keys driven for the step. -/
def keysDriven (ks : BitVec 16) : State := { State.reset with keyIn := ks }

/-- The state after reset with one byte stored. -/
def withByte (s : State) (a : Nat) (b : Byte) : State := s.setMem (s.mem.write a b)

/-- The state after reset with one pixel on. -/
def withPixel (s : State) (x : Fin 64) (y : Fin 32) : State := s.setFb (s.fb.setPixel x y true)

/-- The step recorded this fault (R320, R321): record, status, and `pc` as before the step. -/
def trapped (code : BitVec 3) (pc word info : Word) (t : State) : Bool :=
  t.faultCause == code && t.faultPc == pc && t.faultWord == word && t.faultInfo == info && t.status == 2 &&
    !t.toneEdge && t.pc == pc

/-- W1. -/
theorem test_cls : after (runWord 0x00E0 (withPixel State.reset 7 7))
    (fun t => !t.fb.pixel 7 7 && t.pc == 0x202) = true := by decide

/-- V13: 0x0120 is CLS. -/
theorem test_cls_dontCare : after (runWord 0x0120 (withPixel State.reset 63 31))
    (fun t => !t.fb.pixel 63 31 && t.pc == 0x202) = true := by decide

/-- V25. -/
theorem test_ret : after (runWord 0x00EE (State.reset.setStack (stackWith 1 0x40A) 2))
    (fun t => t.pc == 0x40A && t.sp == 1 && t.stack[1] == 0x40A) = true := by decide

/-- V24, V121. -/
theorem test_ret_empty : after (runWord 0x00EE { State.reset with st := 1 })
    (fun t => trapped 3 0x200 0x00EE 0 t && t.sp == 0 && t.st == 1 && t.op == 0) = true := by decide

/-- W4. -/
theorem test_jp : after (runWord 0x1300 State.reset)
    (fun t => t.pc == 0x300) = true := by decide

/-- V1: the high byte lies at pc. -/
theorem test_jp_fetch : after (step (withByte (withByte State.reset 0x200 0x12) 0x201 0x34))
    (fun t => t.op == 0x1234 && t.pc == 0x234) = true := by decide

/-- V22. -/
theorem test_call : after (runWord 0x2300 (withSp 15))
    (fun t => t.stack[15] == 0x202 && t.sp == 16 && t.pc == 0x300) = true := by decide

/-- V23. -/
theorem test_call_full : after (runWord 0x2300 (withSp 16))
    (fun t => trapped 2 0x200 0x2300 16 t && t.sp == 16) = true := by decide

/-- V32. -/
theorem test_seVxKk : after (runWord 0x3106 (reg1 1 6))
    (fun t => t.pc == 0x204) = true := by decide

/-- V33. -/
theorem test_seVxKk_not : after (runWord 0x3106 (reg1 1 7))
    (fun t => t.pc == 0x202) = true := by decide

/-- V34. -/
theorem test_sneVxKk : after (runWord 0x4201 (reg1 2 0))
    (fun t => t.pc == 0x204) = true := by decide

/-- V35. -/
theorem test_sneVxKk_not : after (runWord 0x4201 (reg1 2 1))
    (fun t => t.pc == 0x202) = true := by decide

/-- V16: the don't-care nibble is 1. -/
theorem test_seVxVy : after (runWord 0x5121 (regs 1 4 2 4))
    (fun t => t.pc == 0x204) = true := by decide

/-- V17: the don't-care nibble is F. -/
theorem test_sneVxVy : after (runWord 0x912F (regs 1 4 2 5))
    (fun t => t.pc == 0x204) = true := by decide

/-- V38. -/
theorem test_sneVxVy_not : after (runWord 0x9110 (reg1 1 4))
    (fun t => t.pc == 0x202) = true := by decide

/-- V40. -/
theorem test_ldVxKk : after (runWord 0x6A42 State.reset)
    (fun t => t.reg 0xA == 0x42 && t.pc == 0x202) = true := by decide

/-- V6: an odd pc is legal. -/
theorem test_ldVxKk_oddPc : after (runWord 0x6007 (State.reset.setPc 0x201))
    (fun t => t.reg 0 == 7 && t.pc == 0x203) = true := by decide

/-- V41: wraps, VF unchanged. -/
theorem test_addVxKk : after (runWord 0x7101 (regs 1 0xFF 15 7))
    (fun t => t.reg 1 == 0 && t.reg 15 == 7) = true := by decide

/-- V42. -/
theorem test_addVxKk_vf : after (runWord 0x7F05 (reg1 15 0x10))
    (fun t => t.reg 15 == 0x15) = true := by decide

/-- V43. -/
theorem test_ldVxVy : after (runWord 0x8120 (reg1 2 7))
    (fun t => t.reg 1 == 7) = true := by decide

/-- V44. -/
theorem test_orVxVy : after (runWord 0x8121 ((regs 1 0x0F 2 0xF0).setReg 15 9))
    (fun t => t.reg 1 == 0xFF && t.reg 15 == 9) = true := by decide

/-- V45. -/
theorem test_andVxVy : after (runWord 0x8122 (regs 1 0x3C 2 0x0F))
    (fun t => t.reg 1 == 0x0C) = true := by decide

/-- V46. -/
theorem test_xorVxVy : after (runWord 0x8123 (regs 1 0xFF 2 0x0F))
    (fun t => t.reg 1 == 0xF0) = true := by decide

/-- W3. -/
theorem test_addVxVy : after (runWord 0x8354 (regs 3 200 5 100))
    (fun t => t.reg 3 == 44 && t.reg 15 == 1 && t.pc == 0x202) = true := by decide

/-- V51: flag last. -/
theorem test_addVxVy_vf : after (runWord 0x8F14 (regs 15 0xFF 1 1))
    (fun t => t.reg 15 == 1) = true := by decide

/-- V54. -/
theorem test_subVxVy : after (runWord 0x8125 (regs 1 3 2 5))
    (fun t => t.reg 1 == 0xFE && t.reg 15 == 0) = true := by decide

/-- V56: flag last. -/
theorem test_subVxVy_vf : after (runWord 0x8F15 (regs 15 3 1 5))
    (fun t => t.reg 15 == 0) = true := by decide

/-- V61: y ignored. -/
theorem test_shrVx : after (runWord 0x8126 (regs 1 4 2 0xFF))
    (fun t => t.reg 1 == 2 && t.reg 15 == 0 && t.reg 2 == 0xFF) = true := by decide

/-- V62: flag last. -/
theorem test_shrVx_vf : after (runWord 0x8F06 (reg1 15 3))
    (fun t => t.reg 15 == 1) = true := by decide

/-- V58. -/
theorem test_subnVxVy : after (runWord 0x8127 (regs 1 5 2 3))
    (fun t => t.reg 1 == 0xFE && t.reg 15 == 0) = true := by decide

/-- V59: ≥, not >. -/
theorem test_subnVxVy_equal : after (runWord 0x8127 (regs 1 9 2 9))
    (fun t => t.reg 1 == 0 && t.reg 15 == 1) = true := by decide

/-- V64. -/
theorem test_shlVx : after (runWord 0x810E (reg1 1 0x81))
    (fun t => t.reg 1 == 2 && t.reg 15 == 1) = true := by decide

/-- V66: flag last. -/
theorem test_shlVx_vf : after (runWord 0x8F0E (reg1 15 0x80))
    (fun t => t.reg 15 == 1) = true := by decide

/-- V67. -/
theorem test_rnd : after (runWord 0xC10F { State.reset with rndIn := 0xB7 })
    (fun t => t.reg 1 == 0x07) = true := by decide

/-- W5. -/
theorem test_rnd_zero : after (runWord 0xC300 { reg1 3 9 with rndIn := 0xFF })
    (fun t => t.reg 3 == 0) = true := by decide

/-- V70. -/
theorem test_ldI : after (runWord 0xA300 State.reset)
    (fun t => t.i == 0x300) = true := by decide

/-- V30: no truncation to 12 bits. -/
theorem test_jpV0 : after (runWord 0xBFFF (reg1 0 0xFF))
    (fun t => t.pc == 0x10FE) = true := by decide

/-- V31: op[11:8] is part of nnn. -/
theorem test_jpV0_notVx : after (runWord 0xB5F0 (regs 0 5 5 9))
    (fun t => t.pc == 0x5F5) = true := by decide

set_option maxRecDepth 8000 in
/-- V100, with V93's clipping. -/
theorem test_drw : after (runWord 0xD121 (withPixel (withByte ((regs 1 63 2 5).setI 0x300) 0x300 0xC0) 63 5))
    (fun t => !t.fb.pixel 63 5 && !t.fb.pixel 0 5 && t.reg 15 == 1) = true := by decide

set_option maxRecDepth 8000 in
/-- V101: the old VF is the column. -/
theorem test_drw_vf : after (runWord 0xDF21 (withByte ((reg1 15 10).setI 0x300) 0x300 0x80))
    (fun t => t.fb.pixel 10 0 && !t.fb.pixel 9 0 && t.reg 15 == 0) = true := by decide

/-- V104. -/
theorem test_skp : after (runWord 0xE19E ({ reg1 1 7 with keyIn := 0x80 }))
    (fun t => t.pc == 0x204) = true := by decide

/-- V108. -/
theorem test_skp_range : after (runWord 0xE19E (reg1 1 0x10))
    (fun t => trapped 5 0x200 0xE19E 0x10 t) = true := by decide

/-- V106. -/
theorem test_sknp : after (runWord 0xE1A1 { reg1 1 7 with keyIn := 0 })
    (fun t => t.pc == 0x204) = true := by decide

/-- V109. -/
theorem test_sknp_range : after (runWord 0xE1A1 (reg1 1 0xFF))
    (fun t => trapped 5 0x200 0xE1A1 0xFF t) = true := by decide

/-- V110. -/
theorem test_ldVxDt : after (runWord 0xF107 { State.reset with dt := 2 })
    (fun t => t.reg 1 == 2 && t.dt == 1) = true := by decide

/-- V113: the least key. -/
theorem test_ldVxK : after (runWord 0xF20A (keysDriven 0x208))
    (fun t => t.reg 2 == 3 && t.pc == 0x202 && t.status == 0) = true := by decide

/-- V112, V114. -/
theorem test_ldVxK_blocked : after (runWord 0xF20A { reg1 2 6 with keyIn := 0, dt := 4, st := 1 })
    (fun t => t.pc == 0x200 && t.status == 1 && t.reg 2 == 6 && t.dt == 3 && t.st == 0 && t.toneEdge) = true := by decide

/-- V116. -/
theorem test_ldDtVx : after (runWord 0xF015 (reg1 0 3))
    (fun t => t.dt == 2) = true := by decide

/-- V117. -/
theorem test_ldDtVx_zero : after (runWord 0xF015 { State.reset with dt := 9 })
    (fun t => t.dt == 0) = true := by decide

/-- V118. -/
theorem test_ldStVx : after (runWord 0xF018 (reg1 0 1))
    (fun t => t.st == 0 && t.toneEdge) = true := by decide

/-- V120: the phase sees ST = 0. -/
theorem test_ldStVx_zero : after (runWord 0xF018 { State.reset with st := 1 })
    (fun t => t.st == 0 && !t.toneEdge) = true := by decide

/-- V73: no 12-bit wrap. -/
theorem test_addIVx : after (runWord 0xF11E ((reg1 1 1).setI 0xFFF))
    (fun t => t.i == 0x1000 && t.faultCause == 0) = true := by decide

/-- V72. -/
theorem test_addIVx_wraps : after (runWord 0xF11E (((regs 1 1 15 8)).setI 0xFFFF))
    (fun t => t.i == 0 && t.reg 15 == 8) = true := by decide

/-- V75. -/
theorem test_ldFVx : after (runWord 0xF029 (reg1 0 0xA))
    (fun t => t.i == 0x082) = true := by decide

/-- V77. -/
theorem test_ldFVx_range : after (runWord 0xF029 (reg1 0 0x10))
    (fun t => trapped 6 0x200 0xF029 0x10 t && t.i == 0) = true := by decide

/-- V78, at V82's address. -/
theorem test_ldBVx : after (runWord 0xF033 ((reg1 0 254).setI 0xFFD))
    (fun t => t.mem.read 0xFFD == 2 && t.mem.read 0xFFE == 5 && t.mem.read 0xFFF == 4 && t.i == 0xFFD) = true := by decide

/-- V83: no byte written. -/
theorem test_ldBVx_range : after (runWord 0xF033 ((reg1 0 254).setI 0xFFE))
    (fun t => trapped 4 0x200 0xF033 0x1000 t && t.mem.read 0xFFE == 0 && t.mem.read 0xFFF == 0) = true := by decide

/-- V85. -/
theorem test_ldMemVx : after (runWord 0xF155 (((regs 0 1 1 2).setReg 2 9).setI 0x400))
    (fun t => t.mem.read 0x400 == 1 && t.mem.read 0x401 == 2 && t.mem.read 0x402 == 0 && t.i == 0x400) = true := by decide

/-- V86. -/
theorem test_ldMemVx_range : after (runWord 0xF155 ((regs 0 1 1 2).setI 0xFFF))
    (fun t => trapped 4 0x200 0xF155 0x1000 t && t.mem.read 0xFFF == 0) = true := by decide

/-- R245, at the last byte of the font (R73): glyph F ends 80 80. -/
theorem test_ldVxMem : after (runWord 0xF165 ((reg1 2 9).setI 0x09E))
    (fun t => t.reg 0 == 0x80 && t.reg 1 == 0x80 && t.reg 2 == 9 && t.i == 0x09E) = true := by decide

/-- V89. -/
theorem test_ldVxMem_range : after (runWord 0xF065 (atI 0xFFF0))
    (fun t => trapped 4 0x200 0xF065 0xFFF0 t) = true := by decide

/-- V2: the word at 0xFFE. -/
theorem test_fetch_top : after (runWord 0x6105 (State.reset.setPc 0xFFE))
    (fun t => t.reg 1 == 5 && t.pc == 0x1000) = true := by decide

/-- V3. -/
theorem test_fetch_outside : after (step { State.reset with pc := 0xFFF, op := 0x77 })
    (fun t => trapped 1 0xFFF 0 0x1000 t && t.op == 0x77) = true := by decide

/-- V7. -/
theorem test_miss : after (runWord 0x0123 { State.reset with dt := 5, st := 5 })
    (fun t => t.pc == 0x202 && t.dt == 4 && t.st == 4 && t.status == 0 && t.op == 0x0123) = true := by decide

/-- V20. -/
theorem test_faulted : after (runWord 0x6105 { State.reset with faultCause := 3, status := 2, dt := 5 })
    (fun t => t.dt == 5 && t.pc == 0x200 && t.reg 1 == 0 && t.status == 2 && !t.toneEdge && t.faultCause == 3) = true := by decide

/-- V123: reset of a faulted block; the font, and zero elsewhere. -/
theorem test_rst : (let t := ({ reg1 3 9 with faultCause := 2, pc := 0x404, status := 2 } : State).rst
    t.reg 3 == 0 && t.faultCause == 0 && t.pc == 0x200 && t.status == 0 && t.mem.read 0x050 == 0xF0 &&
    t.mem.read 0x09F == 0x80 && t.mem.read 0x0A0 == 0 && t.mem.read 0x04F == 0 && t.mem.read 0xFFF == 0) = true := by decide

/-- R374: the ROM goes to 0x200 upwards; the load port has no effect below 0x200. -/
theorem test_load : ((State.reset.loadRom [0x12, 0x34]).any (fun t => t.mem.read 0x200 == 0x12 && t.mem.read 0x201 == 0x34)) = true ∧
    State.reset.loadPort 0x1FF 9 = some State.reset := ⟨by decide, rfl⟩

/-- R87: after the first step the host has no load, and after reset it has one again. -/
theorem test_load_closed : after (runWord 0x6A42 State.reset) (fun t => (t.loadRom [0x12]).isNone &&
    (t.loadPort 0x300 9).isNone && (t.rst.loadPort 0x300 9).isSome) = true := by decide

/-- Log entry 1: what the host drives for the next step. -/
theorem test_hostDrive : after (runWord 0x0123 { State.reset with pending := [⟨0x8000, 0x5A⟩] })
    (fun t => t.keyIn == 0x8000 && t.rndIn == 0x5A && t.pending == [] && t.tick == 1) = true := by decide

/-- Log entry 11: the next step runs the placed word, from reset. -/
theorem test_withFetchWord : after (step (State.reset.withFetchWord 16 0x6A42)) (fun t => t.reg 0xA == 0x42) = true ∧
    decodeTableWord 16 0x6A42 = some (.ldVxKk 0xA 0x42) := by decide

/-! ### Witnesses: the hypotheses of the statements are met

For a hypothesis `exec i s = .next t` or `step s = .next t` the witness says that such a `t` exists, and what else the
statement asks of it. -/

/-- What `after` says, as a statement about the next state. -/
theorem after_exists {r : Result} {P : State → Prop} [DecidablePred P] (h : after r (fun t => decide (P t)) = true) :
    ∃ t, r = .next t ∧ P t := by
  cases r with
  | next t => exact ⟨t, rfl, of_decide_eq_true h⟩
  | fault => cases h
  | refused => cases h

/-- AddSetsCarry, SubSetsNoBorrow, SubnSetsNoBorrow, ShiftsSetBitShiftedOut: a destination that is not VF, a sum above 255 and one at 255. -/
theorem test_met_flagWriters :
    (14 : Reg) ≠ 15 ∧ ((regs 1 255 2 1).reg 1).toNat + ((regs 1 255 2 1).reg 2).toNat > 255 ∧
    ¬ ((regs 1 254 2 1).reg 1).toNat + ((regs 1 254 2 1).reg 2).toNat > 255 := by decide

/-- Both ends of the range. -/
theorem test_met_CallPushesAndJumps :
    (withSp 0).sp.toNat < 16 ∧ (withSp 15).sp.toNat < 16 := by decide

/-- Both ends of the range. -/
theorem test_met_RetPopsPc :
    (withSp 1).sp.toNat = (0 : Fin 16).val + 1 ∧ (withSp 16).sp.toNat = (15 : Fin 16).val + 1 := by decide

/-- Both clauses. -/
theorem test_met_StackLimitsTrap :
    (withSp 16).sp = 16 ∧ (withSp 0).sp = 0 := by decide

/-- The lowest impossible pointer, for both instructions. -/
theorem test_met_OnlyImpossibleStackPointerStops :
    exec (.call 0x300) (withSp 17) = .fault .stackPointerRange ∧ exec (.ret 0x0E) (withSp 17) = .fault .stackPointerRange := ⟨rfl, rfl⟩

/-- A CALL with 15 entries in use; the state it leaves serves as the RET's. -/
theorem test_met_CallThenRetReturns :
    (withSp 15).sp.toNat = (15 : Fin 16).val ∧ ∃ t, exec (.call 0x300) (withSp 15) = .next t ∧ t.sp = 16 := ⟨by decide, after_exists (by decide)⟩

/-- Both ends of the range. -/
theorem test_met_LdFPointsAtGlyph :
    ((reg1 1 0).reg 1).toNat ≤ 0xF ∧ ((reg1 1 0xF).reg 1).toNat ≤ 0xF := by decide

/-- The highest I. -/
theorem test_met_LdBStoresDecimalDigits :
    (atI 0xFFD).i.toNat + 2 ≤ 0xFFF := by decide

/-- LoadBlockReadsRegisters too: the highest I for the shortest and the longest block. -/
theorem test_met_StoreBlockWritesRegisters :
    (atI 0xFFF).i.toNat + (0 : Reg).toNat ≤ 0xFFF ∧ (atI 0xFF0).i.toNat + (15 : Reg).toNat ≤ 0xFFF := by decide

/-- Each clause at its lowest I, and at the highest. -/
theorem test_met_MemRangeTraps :
    (0 < (3 : Nibble).toNat ∧ 0xFFF < (atI 0xFFE).i.toNat + (3 : Nibble).toNat - 1) ∧ 0xFFF < (atI 0xFFE).i.toNat + 2 ∧
    0xFFF < (atI 0xFFF).i.toNat + (1 : Reg).toNat ∧ 0xFFF < (atI 0xFFFF).i.toNat + (0 : Reg).toNat := by decide

/-- The highest I of a sprite of 15 rows; n = 0 at the highest I; the first bit of glyph 0 (0xF0) on an on pixel, and on none. -/
theorem test_met_DrwXorsSpriteAndReportsCollision :
    ((atI 0xFF1).i.toNat + (15 : Nibble).toNat ≤ 0x1000 ∨ (15 : Nibble) = 0) ∧
    ((atI 0xFFFF).i.toNat + (0 : Nibble).toNat ≤ 0x1000 ∨ (0 : Nibble) = 0) ∧
    (∃ px py, spriteAt (withPixel (atI 0x050) 0 0) 1 2 1 px py ∧ (withPixel (atI 0x050) 0 0).fb.pixel px py = true) ∧
    ¬ ∃ px py, spriteAt (atI 0xFFFF) 1 2 0 px py ∧ (atI 0xFFFF).fb.pixel px py = true := by
  refine ⟨by decide, by decide, ⟨0, 0, ?_, by decide⟩, ?_⟩
  · unfold spriteAt; decide
  · rintro ⟨px, py, h, -⟩
    exact absurd (Nat.lt_of_le_of_lt h.2.2.1 h.2.2.2.1) (by decide)

set_option maxRecDepth 8000 in
/-- Glyph 0's first row, drawn and drawn again (V91, V92). -/
theorem test_met_DrawingTwiceErases :
    (1 : Reg) ≠ 15 ∧ (2 : Reg) ≠ 15 ∧ ((atI 0x050).i.toNat + (1 : Nibble).toNat ≤ 0x1000 ∨ (1 : Nibble) = 0) ∧
    ∃ t, exec (.drw 1 2 1) (atI 0x050) = .next t ∧ after (exec (.drw 1 2 1) t) (fun u => u.reg 15 == 1) = true := ⟨by decide, by decide, by decide, after_exists (by decide)⟩

/-- Both ends of the range, with the key pressed and not. -/
theorem test_met_KeySkipsTestTheSnapshot :
    (((reg1 1 0xF).reg 1).toNat ≤ 0xF ∧ (0x8000 : BitVec 16).getLsbD 15 = true) ∧
    (((reg1 1 0).reg 1).toNat ≤ 0xF ∧ (0x8000 : BitVec 16).getLsbD 0 = false) := by decide

/-- Both ends of the range. -/
theorem test_met_IndexAboveFTraps :
    0xF < ((reg1 1 0x10).reg 1).toNat ∧ 0xF < ((reg1 1 0xFF).reg 1).toNat := by decide

/-- The least and the greatest key. -/
theorem test_met_KeyWaitStoresLeastKey :
    ((0x8001 : BitVec 16).getLsbD (0 : Fin 16).val = true ∧ ∀ j, j < (0 : Fin 16).val → (0x8001 : BitVec 16).getLsbD j = false) ∧
    ((0x8000 : BitVec 16).getLsbD (15 : Fin 16).val = true ∧
      ∀ j, j < (15 : Fin 16).val → (0x8000 : BitVec 16).getLsbD j = false) := by decide

/-- The state after reset with the word `w` placed at pc. -/
def withWord (w : Nat) : State := State.reset.withFetchWord 16 w

/-- LD V2,K placed at pc after reset, with no key driven. -/
def waiting : State := (keysDriven 0).withFetchWord 16 0xF20A

/-- A block that recorded a fault, FAULTED. -/
def faultedState : State := { State.reset with faultCause := 3, status := 2 }

/-- LD V2,K right after reset, no key driven. -/
theorem test_met_KeyWaitBlocksTheStep :
    waiting.faultCause = 0 ∧ waiting.pc.toNat + 1 ≤ 0xFFF ∧ waiting.keyIn = 0 ∧
    decode waiting.fetchBytes = .insn (.ldVxK 2) [] := by decide

/-- At the highest pc from which a step fetches. -/
theorem test_met_StepRunsTheDecodedInstruction :
    let s := (State.reset.setPc 0xFFE).withFetchWord 16 0x8354
    s.faultCause = 0 ∧ s.pc.toNat + 1 ≤ 0xFFF ∧ decode s.fetchBytes = .insn (.addVxVy 3 5) [] :=
  ⟨rfl, by decide, by decide⟩

/-- Each clause. -/
theorem test_met_EndOfStepRunsTimersAndStatus :
    State.reset.faultCause = 0 ∧ faultedState.faultCause ≠ 0 ∧ State.reset.pending = [] ∧
    ({ State.reset with pending := [⟨1, 2⟩] } : State).pending = ⟨1, 2⟩ :: [] := by decide

/-- The miss of V7. -/
theorem test_met_DecodeMissIsNoOp :
    (withWord 0x0123).faultCause = 0 ∧ (withWord 0x0123).pc.toNat + 1 ≤ 0xFFF ∧
    decode (withWord 0x0123).fetchBytes = .miss (.class0 3) [] := by decide

/-- LD DT,V0 and LD ST,V0, each the other clause's 'no such instruction'. -/
theorem test_met_TimersCountOncePerStep :
    ((withWord 0xF015).faultCause = 0 ∧ (∃ t, step (withWord 0xF015) = .next t ∧ t.faultCause = 0) ∧
      decode (withWord 0xF015).fetchBytes = .insn (.ldDtVx 0) []) ∧
    ((withWord 0xF018).faultCause = 0 ∧ (∃ t, step (withWord 0xF018) = .next t ∧ t.faultCause = 0) ∧
      decode (withWord 0xF018).fetchBytes = .insn (.ldStVx 0) []) := ⟨⟨by decide, after_exists (by decide), by decide⟩, ⟨by decide, after_exists (by decide), by decide⟩⟩

/-- LD V2,K with no key driven, and with key 15 driven. -/
theorem test_met_StatusReportsKeyWait :
    (waiting.faultCause = 0 ∧ (∃ t, step waiting = .next t ∧ t.faultCause = 0) ∧
      decode waiting.fetchBytes = .insn (.ldVxK 2) [] ∧ waiting.keyIn = 0) ∧
    (((keysDriven 0x8000).withFetchWord 16 0xF20A).faultCause = 0 ∧
      (∃ t, step ((keysDriven 0x8000).withFetchWord 16 0xF20A) = .next t ∧ t.faultCause = 0) ∧
      ((keysDriven 0x8000).withFetchWord 16 0xF20A).keyIn ≠ 0) :=
  ⟨⟨by decide, after_exists (by decide), by decide, by decide⟩, ⟨by decide, after_exists (by decide), by decide⟩⟩

/-- The lowest such pc, and the highest R181 allows. -/
theorem test_met_FetchOutsideMemoryTraps :
    State.reset.faultCause = 0 ∧ 0xFFF < (State.reset.setPc 0xFFF).pc.toNat + 1 ∧ 0xFFF < (State.reset.setPc 0x10FE).pc.toNat + 1 := by decide

/-- A fetch fault and a fault of RET. -/
theorem test_met_FaultsArePrecise :
    ((State.reset.setPc 0xFFF).faultCause = 0 ∧ ∃ t, step (State.reset.setPc 0xFFF) = .next t ∧ t.faultCause ≠ 0 ∧ t.faultCause = 1) ∧
    ((withWord 0x00EE).faultCause = 0 ∧ ∃ t, step (withWord 0x00EE) = .next t ∧ t.faultCause ≠ 0 ∧ t.faultCause ≠ 1) :=
  ⟨⟨by decide, after_exists (by decide)⟩, ⟨by decide, after_exists (by decide)⟩⟩

/-- FaultRecordStandsForever too. -/
theorem test_met_FaultedStepIsInert :
    faultedState.faultCause ≠ 0 := by decide

/-- A store after reset, and an inert step. -/
theorem test_met_StepKeepsStateLegal :
    ((withWord 0xF055).Inv ∧ ∃ t, step (withWord 0xF055) = .next t ∧ t.faultCause = 0) ∧
    (faultedState.Inv ∧ ∃ t, step faultedState = .next t ∧ t.faultCause ≠ 0) := ⟨⟨by decide, after_exists (by decide)⟩, ⟨by decide, after_exists (by decide)⟩⟩

/-- JP V0,FFF with V0 = FF reaches the bound (V30). -/
theorem test_met_StepKeepsPcBounded :
    ((reg1 0 0xFF).withFetchWord 16 0xBFFF).PcBounded ∧
    ∃ t, step ((reg1 0 0xFF).withFetchWord 16 0xBFFF) = .next t ∧ t.pc = 0x10FE := ⟨by decide, after_exists (by decide)⟩

/-- Both ends of the range. -/
theorem test_met_LegalStatesAlwaysStep :
    (withSp 0).sp.toNat ≤ 16 ∧ (withSp 16).sp.toNat ≤ 16 := by decide

/-- A register above x of LD Vx,[I], and one that ADD V3,V5 does not name. -/
theorem test_met_RegistersWrittenAsListed :
    ((∃ t, exec (.ldVxMem 1) (atI 0x09E) = .next t ∧ t.reg 1 = 0x80) ∧ ¬ writesReg (.ldVxMem 1) 2) ∧
    ((∃ t, exec (.addVxVy 3 5) (regs 3 10 5 7) = .next t ∧ t.reg 3 = 17) ∧ ¬ writesReg (.addVxVy 3 5) 5) := ⟨⟨after_exists (by decide), by unfold writesReg; decide⟩, ⟨after_exists (by decide), by unfold writesReg; decide⟩⟩

/-- The bytes just below and just above LD [I],V1. -/
theorem test_met_StoresStayInTheirBytes :
    (∃ t, exec (.ldMemVx 1) ((regs 0 1 1 2).setI 0x400) = .next t ∧ t.mem.read 0x401 = 2) ∧
    ¬ (0x400 ≤ 0x3FF ∧ 0x3FF < 0x400 + storeCount (.ldMemVx 1)) ∧ ¬ (0x400 ≤ 0x402 ∧ 0x402 < 0x400 + storeCount (.ldMemVx 1)) := ⟨after_exists (by decide), by decide, by decide⟩

/-- JP is none of the instructions named. -/
theorem test_met_SpecialStateWrittenAsListed :
    (∃ t, exec (.jp 0x300) State.reset = .next t ∧ t.pc = 0x300) ∧ (∀ nnn, Instr.jp 0x300 ≠ .ldI nnn) ∧
    (∀ x, Instr.jp 0x300 ≠ .addIVx x) ∧ (∀ x, Instr.jp 0x300 ≠ .ldFVx x) ∧ (∀ x, Instr.jp 0x300 ≠ .ldDtVx x) ∧
    (∀ x, Instr.jp 0x300 ≠ .ldStVx x) ∧ (∀ dc, Instr.jp 0x300 ≠ .cls dc) ∧ (∀ x y n, Instr.jp 0x300 ≠ .drw x y n) ∧
    (∀ nnn, Instr.jp 0x300 ≠ .call nnn) ∧ (∀ dc, Instr.jp 0x300 ≠ .ret dc) := by
  refine ⟨after_exists (by decide), ?_, ?_, ?_, ?_, ?_, ?_, ?_, ?_, ?_⟩ <;> intros <;> exact Instr.noConfusion

/-- OnlyKeyInstructionsReadKeys too: ADD V3,V5 is none of the instructions named. -/
theorem test_met_OnlyRndReadsTheOfferedByte :
    (∀ x kk, Instr.addVxVy 3 5 ≠ .rnd x kk) ∧ (∀ x dc, Instr.addVxVy 3 5 ≠ .skp x dc) ∧
    (∀ x dc, Instr.addVxVy 3 5 ≠ .sknp x dc) ∧ ∀ x, Instr.addVxVy 3 5 ≠ .ldVxK x := by
  refine ⟨?_, ?_, ?_, ?_⟩ <;> intros <;> exact Instr.noConfusion

/-- Two states with one entry in use that differ in entry 1; RET answers in both. -/
theorem test_met_StaleStackUnobservable :
    SameButStaleStack (withSp 1) ((withSp 1).setStack (stackWith 1 0x77) 1) ∧ stackWith 1 0x77 ≠ (withSp 1).stack ∧
    (∃ t, exec (.ret 0x0E) (withSp 1) = .next t ∧ t.sp = 0) ∧
    ∃ t, exec (.ret 0x0E) ((withSp 1).setStack (stackWith 1 0x77) 1) = .next t ∧ t.sp = 0 := ⟨⟨rfl, by decide⟩, by decide, after_exists (by decide), after_exists (by decide)⟩

/-- ADD V3,V5. -/
theorem test_met_EncodeOfDecode :
    decodeWord 0x8354 = .insn (.addVxVy 3 5) := by decide

/-- The longest ROM and the shortest rejected one (V125, V126), and a byte of each range. -/
theorem test_met_RomLoadCopiesVerbatim :
    State.reset.loadClosed = false ∧ (List.replicate 3584 (0 : Byte)).length ≤ 3584 ∧ 3584 < (List.replicate 3585 (0 : Byte)).length ∧
    ¬ (0x200 ≤ 0x1FF ∧ 0x1FF < 0x200 + 3584) ∧ ¬ (0x200 ≤ 0x1000 ∧ 0x1000 < 0x200 + 3584) :=
  ⟨rfl, Nat.le_of_eq List.length_replicate, Nat.lt_of_lt_of_eq (by omega : 3584 < 3585) List.length_replicate.symm,
    by omega, by omega⟩

/-- LoadOnlyBeforeFirstStep: one step from reset answers, and before it the load is a move. -/
theorem test_met_LoadOnlyBeforeFirstStep :
    (∃ t : State, Host.Core.run Sys2Proof.core (0 + 1) (withWord 0x6A42) = .next t ∧ t.reg 0xA = 0x42) ∧
    (State.reset.loadRom [0x12]).isSome = true :=
  ⟨after_exists (by decide), by decide⟩

end Sys2Proof.Tests
end

section
/-! Control flow (spec/41_control_flow.md): the skips SE and SNE, of a byte and of a register. -/

namespace Sys2Proof

/-! ### The words of the skips -/

theorem decodeWord_seVxKk (x : Reg) (kk : Byte) : decodeWord (packXkk 0x3 x kk) = .insn (.seVxKk x kk) := by
  simp [decodeWord]

theorem decodeWord_sneVxKk (x : Reg) (kk : Byte) : decodeWord (packXkk 0x4 x kk) = .insn (.sneVxKk x kk) := by
  simp [decodeWord]

theorem decodeWord_seVxVy (x y : Reg) (dc : Nibble) :
    decodeWord (packXyn 0x5 x y dc) = .insn (.seVxVy x y dc) := by
  simp [decodeWord]

theorem decodeWord_sneVxVy (x y : Reg) (dc : Nibble) :
    decodeWord (packXyn 0x9 x y dc) = .insn (.sneVxVy x y dc) := by
  simp [decodeWord]

end Sys2Proof

namespace Sys2Proof.Machine

/-! ### The meanings of the skips -/

theorem exec_seVxKk (x : Reg) (kk : Byte) (s : State) :
    exec (.seVxKk x kk) s = .next (s.skipIf (s.reg x == kk)) := rfl

theorem exec_sneVxKk (x : Reg) (kk : Byte) (s : State) :
    exec (.sneVxKk x kk) s = .next (s.skipIf (s.reg x != kk)) := rfl

theorem exec_seVxVy (x y : Reg) (dc : Nibble) (s : State) :
    exec (.seVxVy x y dc) s = .next (s.skipIf (s.reg x == s.reg y)) := rfl

theorem exec_sneVxVy (x y : Reg) (dc : Nibble) (s : State) :
    exec (.sneVxVy x y dc) s = .next (s.skipIf (s.reg x != s.reg y)) := rfl

/-- An instruction that is `if c then Skip()` (R180) completes, skips exactly when `c` says so, and changes pc alone. -/
theorem skips_of_exec_eq_skipIf {i : Instr} {s : State} {c : Bool} {p : Prop} [Decidable p]
    (h : exec i s = .next (s.skipIf c)) (hc : c = true ↔ p) :
    ∃ t, exec i s = .next t ∧ t.pc = (if p then s.pc + 2 else s.pc) ∧ Frame [.pc] s t := by
  rw [State.skipIf_eq] at h
  refine ⟨_, h, ?_, Frame.setPc _ _⟩
  simp only [State.setPc_pc, hc]

/-! ### The statements -/

/-- Settles O11. -/
theorem skipOnImmediate : Obligations.SkipOnImmediate := fun s x kk =>
  ⟨⟨decodeWord_seVxKk x kk, decodeWord_sneVxKk x kk⟩,
    skips_of_exec_eq_skipIf (exec_seVxKk x kk s) beq_iff_eq,
    skips_of_exec_eq_skipIf (exec_sneVxKk x kk s) bne_iff_ne⟩

/-- Settles O12: the don't-care nibble stands in the decoded instruction, and its meaning does not read it. -/
theorem skipOnRegister : Obligations.SkipOnRegister := fun s x y dc =>
  ⟨⟨decodeWord_seVxVy x y dc, decodeWord_sneVxVy x y dc⟩,
    skips_of_exec_eq_skipIf (exec_seVxVy x y dc s) beq_iff_eq,
    skips_of_exec_eq_skipIf (exec_sneVxVy x y dc s) bne_iff_ne⟩

end Sys2Proof.Machine
end

section
/-! The ALU and the register loads (spec/42_alu.md): LD, ADD of a byte, OR, AND, XOR, and the flag writers ADD, SUB, SUBN. -/

namespace Sys2Proof

/-! ### The words of the ALU -/

theorem decodeWord_ldVxKk (x : Reg) (kk : Byte) : decodeWord (packXkk 0x6 x kk) = .insn (.ldVxKk x kk) := by
  simp [decodeWord]

theorem decodeWord_addVxKk (x : Reg) (kk : Byte) : decodeWord (packXkk 0x7 x kk) = .insn (.addVxKk x kk) := by
  simp [decodeWord]

theorem decodeWord_ldVxVy (x y : Reg) : decodeWord (packXyn 0x8 x y 0x0) = .insn (.ldVxVy x y) := by
  simp [decodeWord, decodeTable8]

theorem decodeWord_orVxVy (x y : Reg) : decodeWord (packXyn 0x8 x y 0x1) = .insn (.orVxVy x y) := by
  simp [decodeWord, decodeTable8]

theorem decodeWord_andVxVy (x y : Reg) : decodeWord (packXyn 0x8 x y 0x2) = .insn (.andVxVy x y) := by
  simp [decodeWord, decodeTable8]

theorem decodeWord_xorVxVy (x y : Reg) : decodeWord (packXyn 0x8 x y 0x3) = .insn (.xorVxVy x y) := by
  simp [decodeWord, decodeTable8]

theorem decodeWord_addVxVy (x y : Reg) : decodeWord (packXyn 0x8 x y 0x4) = .insn (.addVxVy x y) := by
  simp [decodeWord, decodeTable8]

theorem decodeWord_subVxVy (x y : Reg) : decodeWord (packXyn 0x8 x y 0x5) = .insn (.subVxVy x y) := by
  simp [decodeWord, decodeTable8]

theorem decodeWord_subnVxVy (x y : Reg) : decodeWord (packXyn 0x8 x y 0x7) = .insn (.subnVxVy x y) := by
  simp [decodeWord, decodeTable8]

end Sys2Proof

namespace Sys2Proof.Machine

/-! ### The meanings of the ALU -/

theorem exec_ldVxKk (x : Reg) (kk : Byte) (s : State) : exec (.ldVxKk x kk) s = .next (s.setReg x kk) := rfl

theorem exec_addVxKk (x : Reg) (kk : Byte) (s : State) :
    exec (.addVxKk x kk) s = .next (s.setReg x (s.reg x + kk)) := rfl

theorem exec_ldVxVy (x y : Reg) (s : State) : exec (.ldVxVy x y) s = .next (s.setReg x (s.reg y)) := rfl

theorem exec_orVxVy (x y : Reg) (s : State) :
    exec (.orVxVy x y) s = .next (s.setReg x (s.reg x ||| s.reg y)) := rfl

theorem exec_andVxVy (x y : Reg) (s : State) :
    exec (.andVxVy x y) s = .next (s.setReg x (s.reg x &&& s.reg y)) := rfl

theorem exec_xorVxVy (x y : Reg) (s : State) :
    exec (.xorVxVy x y) s = .next (s.setReg x (s.reg x ^^^ s.reg y)) := rfl

theorem exec_addVxVy (x y : Reg) (s : State) :
    exec (.addVxVy x y) s = .next (s.setRegFlag x (s.reg x + s.reg y) (carry (s.reg x) (s.reg y))) := rfl

theorem exec_subVxVy (x y : Reg) (s : State) :
    exec (.subVxVy x y) s = .next (s.setRegFlag x (s.reg x - s.reg y) (noBorrow (s.reg x) (s.reg y))) := rfl

theorem exec_subnVxVy (x y : Reg) (s : State) :
    exec (.subnVxVy x y) s = .next (s.setRegFlag x (s.reg y - s.reg x) (noBorrow (s.reg y) (s.reg x))) := rfl

/-! ### What an ALU instruction leaves -/

theorem toNat_flagByte_carry (a b : Byte) :
    (flagByte (carry a b)).toNat = if a.toNat + b.toNat > 255 then 1 else 0 := by
  simp only [toNat_flagByte, carry, decide_eq_true_eq]

theorem toNat_flagByte_noBorrow (a b : Byte) :
    (flagByte (noBorrow a b)).toNat = if a.toNat ≥ b.toNat then 1 else 0 := by
  simp only [toNat_flagByte, noBorrow, decide_eq_true_eq]

/-- A byte's difference is the integers' difference modulo 256. -/
theorem toNat_sub_eq_emod (a b : Byte) : ((a - b).toNat : Int) = ((a.toNat : Int) - (b.toNat : Int)) % 256 := by
  rw [BitVec.toNat_sub]; omega

/-- An instruction that writes a byte to Vx and no flag completes; what holds of the byte then holds of Vx, and no other
register and nothing else changes. -/
theorem writesVx_of_exec_eq_setReg {i : Instr} {s : State} {x : Reg} {b : Byte} (p : Byte → Prop)
    (h : exec i s = .next (s.setReg x b)) (hb : p b) :
    ∃ t, exec i s = .next t ∧ p (t.reg x) ∧ RegsBut (· = x) s t ∧ Frame [.regs] s t :=
  ⟨_, h, by rwa [State.reg_setReg_same], RegsBut.setReg s x b, Frame.setReg s x b⟩

/-- An instruction that writes a result to Vx and then a flag to VF (10_state.md R32) completes; what holds of the result
then holds of Vx unless Vx is VF, and VF is the flag whatever x is. -/
theorem writesVxThenFlag_of_exec_eq_setRegFlag {i : Instr} {s : State} {x : Reg} {b : Byte} {f : Bool} {n : Nat}
    (p : Byte → Prop) (h : exec i s = .next (s.setRegFlag x b f)) (hb : p b) (hf : (flagByte f).toNat = n) :
    ∃ t, exec i s = .next t ∧ (x ≠ 15 → p (t.reg x)) ∧ (t.reg 15).toNat = n ∧
      RegsBut (fun r => r = x ∨ r = 15) s t ∧ Frame [.regs] s t :=
  ⟨_, h, fun hx => by rwa [State.reg_setRegFlag_dest s x b f hx], by rwa [State.reg_setRegFlag_vf],
    RegsBut.setRegFlag s x b f, Frame.setRegFlag s x b f⟩

/-- SUB and SUBN are one subtraction, with the operands in one order and in the other (R208, R210). -/
theorem subtracts_of_exec_eq_setRegFlag {i : Instr} {s : State} {x : Reg} {a b : Byte}
    (h : exec i s = .next (s.setRegFlag x (a - b) (noBorrow a b))) :
    ∃ t, exec i s = .next t ∧ (x ≠ 15 → ((t.reg x).toNat : Int) = ((a.toNat : Int) - (b.toNat : Int)) % 256) ∧
      (t.reg 15).toNat = (if a.toNat ≥ b.toNat then 1 else 0) ∧
      RegsBut (fun r => r = x ∨ r = 15) s t ∧ Frame [.regs] s t :=
  writesVxThenFlag_of_exec_eq_setRegFlag (fun v => (v.toNat : Int) = ((a.toNat : Int) - (b.toNat : Int)) % 256) h
    (toNat_sub_eq_emod a b) (toNat_flagByte_noBorrow a b)

/-! ### The statements -/

/-- Settles O1. -/
theorem loadsWriteVxOnly : Obligations.LoadsWriteVxOnly := fun s x y kk =>
  ⟨⟨decodeWord_ldVxKk x kk, decodeWord_ldVxVy x y⟩,
    writesVx_of_exec_eq_setReg (· = kk) (exec_ldVxKk x kk s) rfl,
    writesVx_of_exec_eq_setReg (· = s.reg y) (exec_ldVxVy x y s) rfl⟩

/-- Settles O2. -/
theorem addImmediateWrapsWithoutFlag : Obligations.AddImmediateWrapsWithoutFlag := fun s x kk =>
  ⟨decodeWord_addVxKk x kk,
    writesVx_of_exec_eq_setReg (fun v => v.toNat = ((s.reg x).toNat + kk.toNat) % 256) (exec_addVxKk x kk s)
      (BitVec.toNat_add _ _)⟩

/-- Settles O3. -/
theorem bitwiseOpsWriteVxOnly : Obligations.BitwiseOpsWriteVxOnly := fun s x y =>
  ⟨⟨decodeWord_orVxVy x y, decodeWord_andVxVy x y, decodeWord_xorVxVy x y⟩,
    writesVx_of_exec_eq_setReg (fun v => ∀ b < 8, v.getLsbD b = ((s.reg x).getLsbD b || (s.reg y).getLsbD b))
      (exec_orVxVy x y s) (fun _ _ => BitVec.getLsbD_or),
    writesVx_of_exec_eq_setReg (fun v => ∀ b < 8, v.getLsbD b = ((s.reg x).getLsbD b && (s.reg y).getLsbD b))
      (exec_andVxVy x y s) (fun _ _ => BitVec.getLsbD_and),
    writesVx_of_exec_eq_setReg (fun v => ∀ b < 8, v.getLsbD b = ((s.reg x).getLsbD b ^^ (s.reg y).getLsbD b))
      (exec_xorVxVy x y s) (fun _ _ => BitVec.getLsbD_xor)⟩

/-- Settles O4: the flag is computed from the operands before the writes, so x = F and y = F need no case of their own. -/
theorem addSetsCarry : Obligations.AddSetsCarry := fun s x y =>
  ⟨decodeWord_addVxVy x y,
    writesVxThenFlag_of_exec_eq_setRegFlag (fun v => v.toNat = ((s.reg x).toNat + (s.reg y).toNat) % 256)
      (exec_addVxVy x y s) (BitVec.toNat_add _ _) (toNat_flagByte_carry _ _)⟩

/-- Settles O5. -/
theorem subSetsNoBorrow : Obligations.SubSetsNoBorrow := fun s x y =>
  ⟨decodeWord_subVxVy x y, subtracts_of_exec_eq_setRegFlag (exec_subVxVy x y s)⟩

/-- Settles O6: SUB's argument with the operands the other way round. -/
theorem subnSetsNoBorrow : Obligations.SubnSetsNoBorrow := fun s x y =>
  ⟨decodeWord_subnVxVy x y, subtracts_of_exec_eq_setRegFlag (exec_subnVxVy x y s)⟩

end Sys2Proof.Machine
end

section
/-! The index register (spec/43_index_memory.md): LD I,nnn. -/

namespace Sys2Proof

/-! ### The word of LD I -/

theorem decodeWord_ldI (nnn : Addr12) : decodeWord (packNnn 0xA nnn) = .insn (.ldI nnn) := by
  simp [decodeWord]

end Sys2Proof

namespace Sys2Proof.Machine

/-! ### The meaning of LD I -/

theorem exec_ldI (nnn : Addr12) (s : State) : exec (.ldI nnn) s = .next (s.setI (addrOperand nnn)) := rfl

/-! ### The statement -/

/-- Settles O18: the operand is zero-extended into I, and no range check stands on the way. -/
theorem ldILoadsIndex : Obligations.LdILoadsIndex := fun s nnn =>
  ⟨decodeWord_ldI nnn, _, exec_ldI nnn s, toNat_addrOperand nnn, Frame.setI s (addrOperand nnn)⟩

end Sys2Proof.Machine
end

section
/-! The display (spec/44_display.md): CLS. -/

namespace Sys2Proof

/-! ### The word of CLS -/

theorem decodeWord_cls (dc : BitVec 8) : decodeWord (packDc0 dc 0x0) = .insn (.cls dc) := by
  simp [decodeWord, decodeTable0]

end Sys2Proof

namespace Sys2Proof.Machine

/-! ### The meaning of CLS -/

theorem exec_cls (dc : BitVec 8) (s : State) : exec (.cls dc) s = .next (s.setFb Framebuffer.clear) := rfl

/-! ### The statement -/

/-- Settles O25: the cleared framebuffer is one value, whatever the screen showed and whatever the don't-care byte is. -/
theorem clsClearsEveryPixel : Obligations.ClsClearsEveryPixel := fun s dc =>
  ⟨decodeWord_cls dc, _, exec_cls dc s, Framebuffer.pixel_clear, Frame.setFb s Framebuffer.clear⟩

end Sys2Proof.Machine
end

section
/-! The timer phase of a completed step (spec/60_exceptions.md R337): what it counts down from is what the execute phase
leaves in DT and ST, and only LD DT,Vx and LD ST,Vx leave anything new there. -/

namespace Sys2Proof.Machine

/-! ### The timers through an instruction -/

theorem exec_ldDtVx (x : Reg) (s : State) : exec (.ldDtVx x) s = .next (s.setDt (s.reg x)) := rfl

theorem exec_ldStVx (x : Reg) (s : State) : exec (.ldStVx x) s = .next (s.setSt (s.reg x)) := rfl

/-- No instruction but LD DT,Vx writes DT and none but LD ST,Vx writes ST (10_state.md R37); entering a fault writes
neither. -/
theorem exec_timers_kept {i : Instr} {s t : State} (h : exec i s = .next t) :
    ((∀ x, i ≠ .ldDtVx x) → t.dt = s.dt) ∧ ((∀ x, i ≠ .ldStVx x) → t.st = s.st) := by
  cases i with
  | ldDtVx x => cases h; exact ⟨fun hi => absurd rfl (hi x), fun _ => rfl⟩
  | ldStVx x => cases h; exact ⟨fun _ => rfl, fun hi => absurd rfl (hi x)⟩
  | ret dc =>
    rw [exec_ret] at h
    rcases State.pop_cases h with ⟨_, _, rfl⟩ | ⟨_, rfl⟩ <;> exact ⟨fun _ => rfl, fun _ => rfl⟩
  | call nnn =>
    rw [exec_call] at h
    rcases State.push_cases h with ⟨_, rfl⟩ | ⟨_, rfl⟩ <;> exact ⟨fun _ => rfl, fun _ => rfl⟩
  | drw x y n =>
    rw [exec_drw] at h
    rcases State.checkRange_cases h with ⟨_, rfl⟩ | ⟨_, rfl⟩ <;> exact ⟨fun _ => rfl, fun _ => rfl⟩
  | ldBVx x =>
    rw [exec_ldBVx] at h
    rcases State.checkRange_cases h with ⟨_, rfl⟩ | ⟨_, rfl⟩ <;> exact ⟨fun _ => rfl, fun _ => rfl⟩
  | ldMemVx x =>
    rw [exec_ldMemVx] at h
    rcases State.checkRange_cases h with ⟨_, rfl⟩ | ⟨_, rfl⟩ <;> exact ⟨fun _ => rfl, fun _ => rfl⟩
  | ldVxMem x =>
    rw [exec_ldVxMem] at h
    rcases State.checkRange_cases h with ⟨_, rfl⟩ | ⟨_, rfl⟩
    · rw [State.loadBlock_eq]; exact ⟨fun _ => rfl, fun _ => rfl⟩
    · exact ⟨fun _ => rfl, fun _ => rfl⟩
  | skp x dc =>
    rw [exec_skp] at h
    rcases State.checkIndex_cases h with ⟨_, rfl⟩ | ⟨_, rfl⟩
    · rw [State.skipIf_eq]; exact ⟨fun _ => rfl, fun _ => rfl⟩
    · exact ⟨fun _ => rfl, fun _ => rfl⟩
  | sknp x dc =>
    rw [exec_sknp] at h
    rcases State.checkIndex_cases h with ⟨_, rfl⟩ | ⟨_, rfl⟩
    · rw [State.skipIf_eq]; exact ⟨fun _ => rfl, fun _ => rfl⟩
    · exact ⟨fun _ => rfl, fun _ => rfl⟩
  | ldFVx x =>
    rw [exec_ldFVx] at h
    rcases State.checkIndex_cases h with ⟨_, rfl⟩ | ⟨_, rfl⟩ <;> exact ⟨fun _ => rfl, fun _ => rfl⟩
  | seVxKk x kk => rw [exec_seVxKk, State.skipIf_eq] at h; cases h; exact ⟨fun _ => rfl, fun _ => rfl⟩
  | sneVxKk x kk => rw [exec_sneVxKk, State.skipIf_eq] at h; cases h; exact ⟨fun _ => rfl, fun _ => rfl⟩
  | seVxVy x y dc => rw [exec_seVxVy, State.skipIf_eq] at h; cases h; exact ⟨fun _ => rfl, fun _ => rfl⟩
  | sneVxVy x y dc => rw [exec_sneVxVy, State.skipIf_eq] at h; cases h; exact ⟨fun _ => rfl, fun _ => rfl⟩
  | ldVxK x => cases h; cases s.leastKey <;> exact ⟨fun _ => rfl, fun _ => rfl⟩
  | _ => cases h; exact ⟨fun _ => rfl, fun _ => rfl⟩

/-! ### The timers through the execute phase -/

theorem execWord_of_insn {s : State} {i : Instr} (h : decodeWord s.op = .insn i) : execWord s = exec i s := by
  rw [execWord, h]

theorem execWord_of_miss {s : State} {m : Miss} (h : decodeWord s.op = .miss m) : execWord s = .next s := by
  rw [execWord, h]; rfl

/-- A word that is not LD DT,Vx leaves DT, and one that is not LD ST,Vx leaves ST; a miss leaves both (R150). -/
theorem execWord_timers_kept {s u : State} (h : execWord s = .next u) :
    ((∀ x, decodeWord s.op ≠ .insn (.ldDtVx x)) → u.dt = s.dt) ∧
    ((∀ x, decodeWord s.op ≠ .insn (.ldStVx x)) → u.st = s.st) := by
  cases hd : decodeWord s.op with
  | insn i =>
    rw [execWord_of_insn hd] at h
    obtain ⟨hdt, hst⟩ := exec_timers_kept h
    exact ⟨fun hi => hdt fun x e => hi x (congrArg _ e), fun hi => hst fun x e => hi x (congrArg _ e)⟩
  | miss m =>
    rw [execWord_of_miss hd] at h
    cases h
    exact ⟨fun _ => rfl, fun _ => rfl⟩

theorem execWord_ldDtVx {s u : State} {x : Reg} (h : execWord s = .next u) (hd : decodeWord s.op = .insn (.ldDtVx x)) :
    u.dt = s.reg x := by
  rw [execWord_of_insn hd, exec_ldDtVx] at h
  cases h; rfl

theorem execWord_ldStVx {s u : State} {x : Reg} (h : execWord s = .next u) (hd : decodeWord s.op = .insn (.ldStVx x)) :
    u.st = s.reg x := by
  rw [execWord_of_insn hd, exec_ldStVx] at h
  cases h; rfl

/-! ### The timers through the end of the step -/

/-- A step that begins and ends without a fault is a fetch inside memory, an execute phase that enters no fault, and the
end of the step. -/
theorem step_completed {s t : State} (hs : s.faultCause = 0) (h : step s = .next t) (ht : t.faultCause = 0) :
    ∃ u, execWord s.begin.fetched = .next u ∧ u.faulted = false ∧ t = u.finish := by
  rw [← State.not_faulted_iff] at hs ht
  by_cases hp : s.pc.toNat + 1 ≤ 0xFFF
  · rw [step_ok hs hp] at h
    obtain ⟨u, hu, rfl⟩ := Result.map_eq_next h
    exact ⟨u, hu, by rwa [State.finish_faulted] at ht, rfl⟩
  · rw [step_fetchFault hs (by omega)] at h
    cases h
    rw [State.finish_faulted, State.raise_faulted] at ht
    cases ht

/-- R337: the end of a completed step takes 1 from each timer that is above 0, and reports the tone when ST was 1. -/
theorem State.finish_counts_timers_down {u : State} (h : u.faulted = false) :
    u.finish.dt.toNat = u.dt.toNat - 1 ∧ u.finish.st.toNat = u.st.toNat - 1 ∧
      (u.finish.toneEdge = true ↔ u.st.toNat = 1) := by
  obtain ⟨_, _, _, _, e⟩ := State.finish_of_ok h
  rw [e]
  exact ⟨toNat_countDown u.dt, toNat_countDown u.st, beq_iff_eq.trans BitVec.toNat_inj.symm⟩

/-! ### The statement -/

/-- Settles O36: the timers a completed step counts down are those its execute phase left. -/
theorem timersCountOncePerStep : Obligations.TimersCountOncePerStep := by
  intro s t hs h ht
  obtain ⟨u, hu, hf, rfl⟩ := step_completed hs h ht
  obtain ⟨hdt, hst, htone⟩ := State.finish_counts_timers_down hf
  obtain ⟨keptDt, keptSt⟩ := execWord_timers_kept hu
  simp only [ne_eq, decode_fetchBytes_insn, hdt, hst, htone]
  refine ⟨fun hi => ?_, fun x hi => ?_, fun hi => ?_, fun x hi => ?_⟩
  · rw [keptDt hi]; rfl
  · rw [execWord_ldDtVx hu hi]; rfl
  · rw [keptSt hi]; exact ⟨rfl, Iff.rfl⟩
  · rw [execWord_ldStVx hu hi]; exact ⟨rfl, Iff.rfl⟩

end Sys2Proof.Machine
end

section
/-! Legal states (spec/10_state.md R36, R41, R42; spec/60_exceptions.md R321, R337): what the end of a step makes of a
state that has recorded a fault, and of one that has not; from the two, every step keeps the state legal. -/

namespace Sys2Proof.Machine

/-- A meaning that enters no fault leaves the fault record's cause. -/
theorem Effect.faultCause_eq {s t : State} (h : Effect s t) : t.faultCause = s.faultCause := by
  rw [show t = _ from h]

theorem Effect.faulted_eq {s t : State} (h : Effect s t) : t.faulted = s.faulted := by
  simp only [State.faulted, h.faultCause_eq]

/-- The end of a step that has recorded a fault, or was inert, leaves a legal state. -/
theorem State.finish_inv_of_faulted {u : State} (hf : u.faulted = true) (hm : u.mem.wf = true) (hsp : u.sp.toNat ≤ 16)
    (hc : u.faultCause.toNat ≤ 6) (hst : u.status = 2) (ht : u.toneEdge = false) : u.finish.Inv := by
  obtain ⟨_, _, _, _, e⟩ := State.finish_of_faulted hf
  rw [e]
  exact ⟨hm, hsp, hc, (congrArg BitVec.toNat hst).le, ⟨fun _ => hst, fun _ => u.faulted_iff.1 hf⟩, fun _ => ht, rfl⟩

/-- The end of a step that has recorded no fault leaves a legal state. -/
theorem State.finish_inv_of_ok {u : State} (hf : u.faulted = false) (hm : u.mem.wf = true) (hsp : u.sp.toNat ≤ 16) :
    u.finish.Inv := by
  obtain ⟨_, _, _, _, e⟩ := State.finish_of_ok hf
  have hc : u.faultCause = 0 := u.not_faulted_iff.1 hf
  rw [e]
  cases hb : u.locals.blocked <;>
    exact ⟨hm, hsp, by simp [hc], by simp [statusOk, statusBlocked], by simp [hc, statusOk, statusBlocked],
      fun h => absurd hc h, rfl⟩

/-- Settles O42. -/
theorem resetIsLegal : Obligations.ResetIsLegal :=
  ⟨State.reset_mem_wf, by decide, by decide, by decide, by decide, by decide, rfl⟩

/-- Settles O43: a step ends a state with a fault recorded, by itself or before it, or one without. -/
theorem stepKeepsStateLegal : Obligations.StepKeepsStateLegal := by
  rintro s t ⟨hm, hsp, hc, -, -, -, -⟩ h
  rcases step_cases h with ⟨hf, rfl⟩ | ⟨-, -, rfl⟩ | ⟨hf, -, -, rfl⟩ | ⟨hf, -, i, u, -, hu, rfl⟩
  · exact State.finish_inv_of_faulted hf hm hsp hc rfl rfl
  · exact State.finish_inv_of_faulted (State.raise_faulted ..) hm hsp (FaultCause.code_le _) rfl rfl
  · exact State.finish_inv_of_ok hf hm hsp
  · have hm' : u.mem.wf = true := exec_mem_wf hu hm
    have hsp' : u.sp.toNat ≤ 16 := exec_sp_le hu hsp
    rcases exec_next_cases hu with ⟨c, w, -, rfl⟩ | he
    · exact State.finish_inv_of_faulted (State.raise_faulted ..) hm' hsp' (FaultCause.code_le _) rfl rfl
    · exact State.finish_inv_of_ok (he.faulted_eq.trans hf) hm' hsp'

end Sys2Proof.Machine
end

section
/-! The decoder and the encoder (spec/30_encoding.md R101–R112): each undoes the other, and the misses by their keys. -/

namespace Sys2Proof

/-! ### The words of the other instructions -/

theorem decodeWord_ret (dc : BitVec 8) : decodeWord (packDc0 dc 0xE) = .insn (.ret dc) := by
  simp [decodeWord, decodeTable0]

theorem decodeWord_jp (nnn : Addr12) : decodeWord (packNnn 0x1 nnn) = .insn (.jp nnn) := by
  simp [decodeWord]

theorem decodeWord_call (nnn : Addr12) : decodeWord (packNnn 0x2 nnn) = .insn (.call nnn) := by
  simp [decodeWord]

theorem decodeWord_shrVx (x : Reg) (dc : Nibble) : decodeWord (packXyn 0x8 x dc 0x6) = .insn (.shrVx x dc) := by
  simp [decodeWord, decodeTable8]

theorem decodeWord_shlVx (x : Reg) (dc : Nibble) : decodeWord (packXyn 0x8 x dc 0xE) = .insn (.shlVx x dc) := by
  simp [decodeWord, decodeTable8]

theorem decodeWord_jpV0 (nnn : Addr12) : decodeWord (packNnn 0xB nnn) = .insn (.jpV0 nnn) := by
  simp [decodeWord]

theorem decodeWord_rnd (x : Reg) (kk : Byte) : decodeWord (packXkk 0xC x kk) = .insn (.rnd x kk) := by
  simp [decodeWord]

theorem decodeWord_drw (x y : Reg) (n : Nibble) : decodeWord (packXyn 0xD x y n) = .insn (.drw x y n) := by
  simp [decodeWord]

theorem decodeWord_skp (x : Reg) (dc : Nibble) : decodeWord (packXyn 0xE x dc 0xE) = .insn (.skp x dc) := by
  simp [decodeWord, decodeTableE]

theorem decodeWord_sknp (x : Reg) (dc : Nibble) : decodeWord (packXyn 0xE x dc 0x1) = .insn (.sknp x dc) := by
  simp [decodeWord, decodeTableE]

/-- A word of class 0xF is decoded by its second byte (R108). -/
theorem decodeWord_packXkk_F (x : Reg) (kk : Byte) :
    decodeWord (packXkk 0xF x kk) = decodeTableF (packXkk 0xF x kk) := by
  simp [decodeWord]

/-! ### Decoding what was encoded -/

/-- The word of every instruction decodes to it (R111). -/
theorem decodeWord_encode (i : Instr) : decodeWord (encode i) = .insn i := by
  cases i with
  | cls dc => exact decodeWord_cls dc
  | ret dc => exact decodeWord_ret dc
  | jp nnn => exact decodeWord_jp nnn
  | call nnn => exact decodeWord_call nnn
  | seVxKk x kk => exact decodeWord_seVxKk x kk
  | sneVxKk x kk => exact decodeWord_sneVxKk x kk
  | seVxVy x y dc => exact decodeWord_seVxVy x y dc
  | ldVxKk x kk => exact decodeWord_ldVxKk x kk
  | addVxKk x kk => exact decodeWord_addVxKk x kk
  | ldVxVy x y => exact decodeWord_ldVxVy x y
  | orVxVy x y => exact decodeWord_orVxVy x y
  | andVxVy x y => exact decodeWord_andVxVy x y
  | xorVxVy x y => exact decodeWord_xorVxVy x y
  | addVxVy x y => exact decodeWord_addVxVy x y
  | subVxVy x y => exact decodeWord_subVxVy x y
  | shrVx x dc => exact decodeWord_shrVx x dc
  | subnVxVy x y => exact decodeWord_subnVxVy x y
  | shlVx x dc => exact decodeWord_shlVx x dc
  | sneVxVy x y dc => exact decodeWord_sneVxVy x y dc
  | ldI nnn => exact decodeWord_ldI nnn
  | jpV0 nnn => exact decodeWord_jpV0 nnn
  | rnd x kk => exact decodeWord_rnd x kk
  | drw x y n => exact decodeWord_drw x y n
  | skp x dc => exact decodeWord_skp x dc
  | sknp x dc => exact decodeWord_sknp x dc
  | _ x => exact (decodeWord_packXkk_F x _).trans (by simp [decodeTableF])

/-- A word's bytes in front of any others decode as the word, and leave the others (R100). -/
theorem decode_bytes_of_insn {w : Word} {i : Instr} (h : decodeWord w = .insn i) (rest : List Byte) :
    decode (hiByte w :: loByte w :: rest) = .insn i rest := by
  rw [decode, wordOfBytes_hi_lo, h]

/-- Settles O53. -/
theorem decodeOfEncode : Obligations.DecodeOfEncode := fun i rest =>
  ⟨decodeWord_encode i, decode_bytes_of_insn (decodeWord_encode i) rest⟩

/-! ### Encoding what was decoded -/

theorem packXyn_fields {w : Word} {c n : Nibble} (hc : (fieldC w).toNat = c.toNat) (hn : (fieldN w).toNat = n.toNat) :
    packXyn c (fieldX w) (fieldY w) n = w := by
  apply BitVec.eq_of_toNat_eq
  rw [toNat_fieldC] at hc
  rw [toNat_fieldN] at hn
  rw [toNat_packXyn, toNat_fieldX, toNat_fieldY]; omega

theorem packXkk_fields {w : Word} {c : Nibble} {kk : Byte} (hc : (fieldC w).toNat = c.toNat)
    (hk : (fieldKk w).toNat = kk.toNat) : packXkk c (fieldX w) kk = w := by
  apply BitVec.eq_of_toNat_eq
  rw [toNat_fieldC] at hc
  rw [toNat_fieldKk] at hk
  rw [toNat_packXkk, toNat_fieldX]; omega

theorem packNnn_fields {w : Word} {c : Nibble} (hc : (fieldC w).toNat = c.toNat) : packNnn c (fieldNnn w) = w := by
  apply BitVec.eq_of_toNat_eq
  rw [toNat_fieldC] at hc
  rw [toNat_packNnn, toNat_fieldNnn]; omega

theorem packDc0_fields {w : Word} {n : Nibble} (hc : (fieldC w).toNat = 0) (hn : (fieldN w).toNat = n.toNat) :
    packDc0 (fieldDc0 w) n = w := by
  apply BitVec.eq_of_toNat_eq
  rw [toNat_fieldC] at hc
  rw [toNat_fieldN] at hn
  rw [toNat_packDc0, toNat_fieldDc0]; omega

theorem encode_of_decodeTable0 {w : Word} {i : Instr} (hc : (fieldC w).toNat = 0x0) (h : decodeTable0 w = .insn i) :
    encode i = w := by
  unfold decodeTable0 at h
  split at h <;> cases h <;> exact packDc0_fields hc ‹_›

theorem encode_of_decodeTable8 {w : Word} {i : Instr} (hc : (fieldC w).toNat = 0x8) (h : decodeTable8 w = .insn i) :
    encode i = w := by
  unfold decodeTable8 at h
  split at h <;> cases h <;> exact packXyn_fields hc ‹_›

theorem encode_of_decodeTableE {w : Word} {i : Instr} (hc : (fieldC w).toNat = 0xE) (h : decodeTableE w = .insn i) :
    encode i = w := by
  unfold decodeTableE at h
  split at h <;> cases h <;> exact packXyn_fields hc ‹_›

theorem encode_of_decodeTableF {w : Word} {i : Instr} (hc : (fieldC w).toNat = 0xF) (h : decodeTableF w = .insn i) :
    encode i = w := by
  unfold decodeTableF at h
  split at h <;> cases h <;> exact packXkk_fields hc ‹_›

/-- Settles O54: in every class the word is rebuilt from the fields the decoder read and from the key it matched. -/
theorem encodeOfDecode : Obligations.EncodeOfDecode := by
  intro w i h
  unfold decodeWord at h
  split at h
  case h_1 hc => exact encode_of_decodeTable0 hc h
  case h_9 hc => exact encode_of_decodeTable8 hc h
  case h_15 hc => exact encode_of_decodeTableE hc h
  case h_16 =>
    have hc : (fieldC w).toNat = 0xF := by
      have := (fieldC w).isLt
      simp only [imp_false] at *; omega
    exact encode_of_decodeTableF hc h
  case h_2 hc | h_3 hc | h_11 hc | h_12 hc => cases h; exact packNnn_fields hc
  case h_4 hc | h_5 hc | h_7 hc | h_8 hc | h_13 hc => cases h; exact packXkk_fields hc rfl
  case h_6 hc | h_10 hc | h_14 hc => cases h; exact packXyn_fields hc rfl

/-! ### The misses -/

theorem decodeTable0_miss_iff (w : Word) :
    (∃ m, decodeTable0 w = .miss m) ↔ (fieldN w).toNat ≠ 0x0 ∧ (fieldN w).toNat ≠ 0xE := by
  unfold decodeTable0
  split <;> simp_all

theorem decodeTable8_miss_iff (w : Word) : (∃ m, decodeTable8 w = .miss m) ↔
    (0x8 ≤ (fieldN w).toNat ∧ (fieldN w).toNat ≤ 0xD) ∨ (fieldN w).toNat = 0xF := by
  have := (fieldN w).isLt
  unfold decodeTable8
  split
  case h_10 => simp only [imp_false] at *; simp; omega
  all_goals simp_all

theorem decodeTableE_miss_iff (w : Word) :
    (∃ m, decodeTableE w = .miss m) ↔ (fieldN w).toNat ≠ 0x1 ∧ (fieldN w).toNat ≠ 0xE := by
  unfold decodeTableE
  split <;> simp_all

theorem decodeTableF_miss_iff (w : Word) : (∃ m, decodeTableF w = .miss m) ↔
    (fieldKk w).toNat ∉ [0x07, 0x0A, 0x15, 0x18, 0x1E, 0x29, 0x33, 0x55, 0x65] := by
  unfold decodeTableF
  split <;> simp_all

/-- Settles O55: outside the four classes with a secondary table there is no miss, and in each its table says when. -/
theorem missesAreExactlyTheUnlistedKeys : Obligations.MissesAreExactlyTheUnlistedKeys := by
  intro w
  simp only [← toNat_fieldC, ← toNat_fieldN, ← toNat_fieldKk]
  unfold decodeWord
  split
  case h_1 hc => rw [decodeTable0_miss_iff]; simp [hc]
  case h_9 hc => rw [decodeTable8_miss_iff]; simp [hc]
  case h_15 hc => rw [decodeTableE_miss_iff]; simp [hc]
  case h_16 =>
    have hc : (fieldC w).toNat = 0xF := by
      have := (fieldC w).isLt
      simp only [imp_false] at *; omega
    rw [decodeTableF_miss_iff]; simp [hc]
  all_goals simp [*]

/-- Settles O56. -/
theorem sourceWordsDecode : Obligations.SourceWordsDecode := ⟨by decide, by decide, by decide, by decide⟩

end Sys2Proof
end

section
/-! What each instruction leaves when it enters no fault, as one expression; and from it, once, which instruction can
write which piece of the state (spec/10_state.md R30–R39; spec/20_memory.md R79). -/

namespace Sys2Proof.Machine

/-! ### The state an instruction leaves -/

/-- What an instruction leaves in the state `s` when it enters no fault. Every condition stands inside the value
written, so that a piece of state the instruction does not write is the same by definition (but for LD Vx,K, where the
key decides). -/
def completed (i : Instr) (s : State) : State :=
  match i with
  | .cls _ => s.setFb Framebuffer.clear
  | .ret _ => (s.setStack s.stack (s.sp - 1)).setPc (if h : s.sp.toNat - 1 < 16 then s.stack[s.sp.toNat - 1] else 0)
  | .jp nnn => s.setPc (addrOperand nnn)
  | .call nnn =>
    (s.setStack (if h : s.sp.toNat < 16 then s.stack.set s.sp.toNat s.pc else s.stack) (s.sp + 1)).setPc
      (addrOperand nnn)
  | .seVxKk x kk => s.setPc (if s.reg x == kk then s.pc + 2 else s.pc)
  | .sneVxKk x kk => s.setPc (if s.reg x != kk then s.pc + 2 else s.pc)
  | .seVxVy x y _ => s.setPc (if s.reg x == s.reg y then s.pc + 2 else s.pc)
  | .ldVxKk x kk => s.setReg x kk
  | .addVxKk x kk => s.setReg x (s.reg x + kk)
  | .ldVxVy x y => s.setReg x (s.reg y)
  | .orVxVy x y => s.setReg x (s.reg x ||| s.reg y)
  | .andVxVy x y => s.setReg x (s.reg x &&& s.reg y)
  | .xorVxVy x y => s.setReg x (s.reg x ^^^ s.reg y)
  | .addVxVy x y => s.setRegFlag x (s.reg x + s.reg y) (carry (s.reg x) (s.reg y))
  | .subVxVy x y => s.setRegFlag x (s.reg x - s.reg y) (noBorrow (s.reg x) (s.reg y))
  | .shrVx x _ => s.setRegFlag x (s.reg x >>> 1) (shrOut (s.reg x))
  | .subnVxVy x y => s.setRegFlag x (s.reg y - s.reg x) (noBorrow (s.reg y) (s.reg x))
  | .shlVx x _ => s.setRegFlag x (s.reg x <<< 1) (shlOut (s.reg x))
  | .sneVxVy x y _ => s.setPc (if s.reg x != s.reg y then s.pc + 2 else s.pc)
  | .ldI nnn => s.setI (addrOperand nnn)
  | .jpV0 nnn => s.setPc (addrOperand nnn + wordOperand (s.reg 0))
  | .rnd x kk => s.setReg x (s.rndIn &&& kk)
  | .drw x y n => s.draw x y n
  | .skp x _ => s.setPc (if s.keyDown ((s.reg x).setWidth 4) then s.pc + 2 else s.pc)
  | .sknp x _ => s.setPc (if !s.keyDown ((s.reg x).setWidth 4) then s.pc + 2 else s.pc)
  | .ldVxDt x => s.setReg x s.dt
  | .ldVxK x =>
    match s.leastKey with
    | some k => s.setReg x (BitVec.ofNat 8 k)
    | none => (s.setPc (s.pc - 2)).setBlocked
  | .ldDtVx x => s.setDt (s.reg x)
  | .ldStVx x => s.setSt (s.reg x)
  | .addIVx x => s.setI (s.i + wordOperand (s.reg x))
  | .ldFVx x => s.setI (glyphAddr ((s.reg x).setWidth 4))
  | .ldBVx x => s.setMem (s.mem.writeAll s.i.toNat (decimalDigits (s.reg x)))
  | .ldMemVx x => s.setMem (s.mem.writeAll s.i.toNat (s.block x))
  | .ldVxMem x => { s with v := (s.loadBlock (blockCount x)).v }

/-- An instruction that answers a next state answers the one it completes with, or that of a fault it enters. -/
theorem exec_completes_or_raises {i : Instr} {s t : State} (h : exec i s = .next t) :
    t = completed i s ∨ ∃ c w, t = s.raise c w := by
  cases i with
  | ret dc =>
    rw [exec_ret] at h
    rcases State.pop_cases h with ⟨hsp, _, rfl⟩ | ⟨_, rfl⟩
    · exact .inl (by rw [completed, dif_pos hsp])
    · exact .inr ⟨_, _, rfl⟩
  | call nnn =>
    rw [exec_call] at h
    rcases State.push_cases h with ⟨hsp, rfl⟩ | ⟨_, rfl⟩
    · exact .inl (by rw [completed, dif_pos hsp])
    · exact .inr ⟨_, _, rfl⟩
  | drw x y n =>
    rw [exec_drw] at h
    exact (State.checkRange_cases h).imp (fun e => e.2) (fun e => ⟨_, _, e.2⟩)
  | ldBVx x =>
    rw [exec_ldBVx] at h
    exact (State.checkRange_cases h).imp (fun e => e.2) (fun e => ⟨_, _, e.2⟩)
  | ldMemVx x =>
    rw [exec_ldMemVx] at h
    exact (State.checkRange_cases h).imp (fun e => e.2) (fun e => ⟨_, _, e.2⟩)
  | ldVxMem x =>
    rw [exec_ldVxMem] at h
    exact (State.checkRange_cases h).imp (fun e => e.2.trans (State.loadBlock_eq s _)) (fun e => ⟨_, _, e.2⟩)
  | ldFVx x =>
    rw [exec_ldFVx] at h
    exact (State.checkIndex_cases h).imp (fun e => e.2) (fun e => ⟨_, _, e.2⟩)
  | skp x dc =>
    rw [exec_skp] at h
    exact (State.checkIndex_cases h).imp (fun e => e.2.trans (State.skipIf_eq s _)) (fun e => ⟨_, _, e.2⟩)
  | sknp x dc =>
    rw [exec_sknp] at h
    exact (State.checkIndex_cases h).imp (fun e => e.2.trans (State.skipIf_eq s _)) (fun e => ⟨_, _, e.2⟩)
  | seVxKk x kk => cases h; exact .inl (State.skipIf_eq s _)
  | sneVxKk x kk => cases h; exact .inl (State.skipIf_eq s _)
  | seVxVy x y dc => cases h; exact .inl (State.skipIf_eq s _)
  | sneVxVy x y dc => cases h; exact .inl (State.skipIf_eq s _)
  | _ => cases h; exact .inl rfl

/-! ### Who writes what -/

/-- No register but those listed (10_state.md R30, R31). -/
theorem completed_reg (i : Instr) (s : State) {r : Reg} (hr : ¬ writesReg i r) : (completed i s).reg r = s.reg r := by
  cases i with
  | addVxVy x y => exact RegsBut.setRegFlag s x _ _ r hr
  | subVxVy x y => exact RegsBut.setRegFlag s x _ _ r hr
  | subnVxVy x y => exact RegsBut.setRegFlag s x _ _ r hr
  | shrVx x dc => exact RegsBut.setRegFlag s x _ _ r hr
  | shlVx x dc => exact RegsBut.setRegFlag s x _ _ r hr
  | ldVxKk x kk => exact RegsBut.setReg s x _ r hr
  | addVxKk x kk => exact RegsBut.setReg s x _ r hr
  | ldVxVy x y => exact RegsBut.setReg s x _ r hr
  | orVxVy x y => exact RegsBut.setReg s x _ r hr
  | andVxVy x y => exact RegsBut.setReg s x _ r hr
  | xorVxVy x y => exact RegsBut.setReg s x _ r hr
  | rnd x kk => exact RegsBut.setReg s x _ r hr
  | ldVxDt x => exact RegsBut.setReg s x _ r hr
  | ldVxK x =>
    unfold completed
    cases s.leastKey with
    | some k => exact RegsBut.setReg s x _ r hr
    | none => rfl
  | drw x y n => exact (State.reg_setFlag ..).trans (if_neg hr)
  | ldVxMem x =>
    have hx : ¬ r.toNat < blockCount x := fun e => hr (Nat.lt_succ_iff.1 e)
    exact (State.reg_loadBlock s _ (Nat.succ_le_of_lt x.isLt) r).trans (if_neg hx)
  | _ => rfl

/-- A block of `n` stores from `base` leaves every byte outside those `n` alone. -/
theorem Memory.read_writeAll_outside {bs : List Byte} {m : Memory} {base n a : Nat} (hl : bs.length = n)
    (ha : ¬ (base ≤ a ∧ a < base + n)) : (m.writeAll base bs).read a = m.read a :=
  Memory.read_writeAll_other bs m base a (by omega)

theorem length_decimalDigits (v : Byte) : (decimalDigits v).length = 3 := rfl

/-- No byte but those listed (20_memory.md R79). -/
theorem completed_read (i : Instr) (s : State) {a : Nat} (ha : ¬ (s.i.toNat ≤ a ∧ a < s.i.toNat + storeCount i)) :
    (completed i s).mem.read a = s.mem.read a := by
  cases i with
  | ldBVx x => exact Memory.read_writeAll_outside (length_decimalDigits _) ha
  | ldMemVx x => exact Memory.read_writeAll_outside (State.length_block s x) ha
  | ldVxK x => unfold completed; cases s.leastKey <;> rfl
  | _ => rfl

theorem completed_i (i : Instr) (s : State) (h1 : ∀ nnn, i ≠ .ldI nnn) (h2 : ∀ x, i ≠ .addIVx x)
    (h3 : ∀ x, i ≠ .ldFVx x) : (completed i s).i = s.i := by
  cases i with
  | ldI nnn => exact absurd rfl (h1 nnn)
  | addIVx x => exact absurd rfl (h2 x)
  | ldFVx x => exact absurd rfl (h3 x)
  | ldVxK x => unfold completed; cases s.leastKey <;> rfl
  | _ => rfl

theorem completed_fb (i : Instr) (s : State) (h1 : ∀ dc, i ≠ .cls dc) (h2 : ∀ x y n, i ≠ .drw x y n) :
    (completed i s).fb = s.fb := by
  cases i with
  | cls dc => exact absurd rfl (h1 dc)
  | drw x y n => exact absurd rfl (h2 x y n)
  | ldVxK x => unfold completed; cases s.leastKey <;> rfl
  | _ => rfl

theorem completed_stack (i : Instr) (s : State) (h1 : ∀ nnn, i ≠ .call nnn) (h2 : ∀ dc, i ≠ .ret dc) :
    (completed i s).sp = s.sp ∧ (completed i s).stack = s.stack := by
  cases i with
  | call nnn => exact absurd rfl (h1 nnn)
  | ret dc => exact absurd rfl (h2 dc)
  | ldVxK x => unfold completed; cases s.leastKey <;> exact ⟨rfl, rfl⟩
  | _ => exact ⟨rfl, rfl⟩

theorem completed_key (i : Instr) (s : State) : (completed i s).key = s.key := by
  cases i with
  | ldVxK x => unfold completed; cases s.leastKey <;> rfl
  | _ => rfl

theorem completed_locals (i : Instr) (s : State) (h : ∀ x, i ≠ .ldVxK x) : (completed i s).locals = s.locals := by
  cases i with
  | ldVxK x => exact absurd rfl (h x)
  | _ => rfl

/-! ### The statements -/

/-- Settles O47: a fault writes no register. -/
theorem registersWrittenAsListed : Obligations.RegistersWrittenAsListed := by
  intro i s t r h hr
  rcases exec_completes_or_raises h with rfl | ⟨c, w, rfl⟩
  · exact completed_reg i s hr
  · rfl

/-- Settles O48: a fault writes no byte. -/
theorem storesStayInTheirBytes : Obligations.StoresStayInTheirBytes := by
  intro i s t a h ha
  rcases exec_completes_or_raises h with rfl | ⟨c, w, rfl⟩
  · exact completed_read i s ha
  · rfl

/-- Settles O49: a fault writes none of this state. -/
theorem specialStateWrittenAsListed : Obligations.SpecialStateWrittenAsListed := by
  intro i s t h
  obtain ⟨hdt, hst⟩ := exec_timers_kept h
  rcases exec_completes_or_raises h with rfl | ⟨c, w, rfl⟩
  · exact ⟨completed_i i s, hdt, hst, fun h1 h2 _ _ => by rw [completed_fb i s h1 h2], completed_stack i s,
      completed_key i s⟩
  · exact ⟨fun _ _ _ => rfl, hdt, hst, fun _ _ _ _ => rfl, fun _ _ => ⟨rfl, rfl⟩, rfl⟩

end Sys2Proof.Machine
end

section
/-! The bounds on the program counter and on the stacked addresses (spec/41_control_flow.md R181): what the fetch leaves
is at most 0x1000, a skip adds 2, and JP V0 reaches 0xFFF + 0xFF = 0x10FE. -/

namespace Sys2Proof.Machine

/-! ### The program counter an instruction leaves -/

theorem toNat_skipPc_le {a : Word} (ha : a.toNat ≤ 0x1000) (c : Bool) :
    (if c then a + 2 else a).toNat ≤ 0x10FE := by
  cases c
  · exact ha.trans (by decide)
  · show (a + 2).toNat ≤ 0x10FE
    bv_omega

theorem toNat_addrOperand_le (nnn : Addr12) : (addrOperand nnn).toNat ≤ 0xFFF := by
  have := nnn.isLt
  rw [toNat_addrOperand]; omega

/-- JP V0,nnn computes an exact sum: 16 bits hold every one (41_control_flow.md R179). -/
theorem toNat_addrOperand_add (nnn : Addr12) (b : Byte) :
    (addrOperand nnn + wordOperand b).toNat = nnn.toNat + b.toNat := by
  have := nnn.isLt
  have := b.isLt
  rw [BitVec.toNat_add, toNat_addrOperand, toNat_wordOperand]; omega

theorem completed_pc_le (i : Instr) (s : State) (h2 : 2 ≤ s.pc.toNat) (hpc : s.pc.toNat ≤ 0x1000)
    (hst : ∀ j : Fin 16, s.stack[j].toNat ≤ 0x1000) : (completed i s).pc.toNat ≤ 0x10FE := by
  cases i with
  | ret dc =>
    by_cases hsp : s.sp.toNat - 1 < 16
    · rw [completed, dif_pos hsp]
      exact (hst ⟨s.sp.toNat - 1, hsp⟩).trans (by decide)
    · rw [completed, dif_neg hsp]; exact Nat.zero_le _
  | jp nnn => exact (toNat_addrOperand_le nnn).trans (by decide)
  | call nnn => exact (toNat_addrOperand_le nnn).trans (by decide)
  | jpV0 nnn =>
    have := nnn.isLt
    have := (s.reg 0).isLt
    exact (toNat_addrOperand_add nnn (s.reg 0)).trans_le (by omega)
  | seVxKk x kk => exact toNat_skipPc_le hpc _
  | sneVxKk x kk => exact toNat_skipPc_le hpc _
  | seVxVy x y dc => exact toNat_skipPc_le hpc _
  | sneVxVy x y dc => exact toNat_skipPc_le hpc _
  | skp x dc => exact toNat_skipPc_le hpc _
  | sknp x dc => exact toNat_skipPc_le hpc _
  | ldVxK x =>
    unfold completed
    cases s.leastKey with
    | some k => exact hpc.trans (by decide)
    | none =>
      show (s.pc - 2).toNat ≤ 0x10FE
      bv_omega
  | _ => exact hpc.trans (by decide)

/-- CALL stacks the pc, and no other instruction stacks anything. -/
theorem completed_stack_le (i : Instr) (s : State) (hpc : s.pc.toNat ≤ 0x1000)
    (hst : ∀ j : Fin 16, s.stack[j].toNat ≤ 0x1000) (j : Fin 16) : (completed i s).stack[j].toNat ≤ 0x1000 := by
  cases i with
  | call nnn =>
    by_cases hsp : s.sp.toNat < 16
    · rw [completed, dif_pos hsp]
      show ((s.stack.set s.sp.toNat s.pc)[j.val]).toNat ≤ 0x1000
      rw [Vector.getElem_set]
      split
      · exact hpc
      · exact hst j
    · rw [completed, dif_neg hsp]; exact hst j
  | ldVxK x => unfold completed; cases s.leastKey <;> exact hst j
  | _ => exact hst j

/-! ### The end of a step -/

/-- The end of a step changes the timers, the outputs, the ports and the locals alone. -/
theorem Frame.finish (u : State) : Frame [.dt, .st, .tone, .status, .ports, .locals] u u.finish := by
  cases hf : u.faulted
  · exact Frame.finish_of_ok hf
  · exact (Frame.finish_of_faulted hf).mono (by simp)

/-- A part that turns out the same may be taken off a frame. -/
theorem Frame.of_same {q : Part} {ps : List Part} {s t : State} (h : Frame (q :: ps) s t) (hq : q.same s t) :
    Frame ps s t := by
  intro p hp
  by_cases e : p = q
  · exact e ▸ hq
  · exact h p (by simp [e, hp])

@[simp] theorem State.finish_pc (u : State) : u.finish.pc = u.pc := Frame.finish u .pc (by decide)

theorem State.finish_pcBounded {u : State} (h : u.PcBounded) : u.finish.PcBounded :=
  ⟨u.finish_pc ▸ h.1, fun j => (Frame.finish u .stack (by decide) j) ▸ h.2 j⟩

/-! ### The statements -/

/-- Settles O44. -/
theorem resetPcBounded : Obligations.ResetPcBounded := ⟨by decide, by decide⟩

/-- Settles O45: the fetch reads below 0x1000, so it leaves a pc of 2 to 0x1000 for the instruction; a fault puts the pc
of the step's start back. -/
theorem stepKeepsPcBounded : Obligations.StepKeepsPcBounded := by
  rintro s t ⟨hpc, hst⟩ h
  have fetched_pc (hp : s.pc.toNat + 1 ≤ 0xFFF) : s.begin.fetched.pc.toNat = s.pc.toNat + 2 := by
    show (s.pc + 2).toNat = _
    bv_omega
  rcases step_cases h with ⟨-, rfl⟩ | ⟨-, -, rfl⟩ | ⟨-, hp, -, rfl⟩ | ⟨-, hp, i, u, -, hu, rfl⟩
  · exact State.finish_pcBounded ⟨hpc, hst⟩
  · exact State.finish_pcBounded ⟨hpc, hst⟩
  · exact State.finish_pcBounded ⟨by rw [fetched_pc hp]; omega, hst⟩
  · rcases exec_completes_or_raises hu with rfl | ⟨c, w, rfl⟩
    · have hle : s.begin.fetched.pc.toNat ≤ 0x1000 := by rw [fetched_pc hp]; omega
      exact State.finish_pcBounded ⟨completed_pc_le i _ (by rw [fetched_pc hp]; omega) hle hst,
        completed_stack_le i _ hle hst⟩
    · exact State.finish_pcBounded ⟨hpc, hst⟩

end Sys2Proof.Machine
end

section
/-! What an instruction does not read: the keypad snapshot (spec/10_state.md R39), the offered byte
(spec/60_exceptions.md R348), stack entries no longer in use (spec/10_state.md R45), don't-care bits
(spec/30_encoding.md R110). -/

namespace Sys2Proof.Machine

/-! ### Running with another snapshot, byte or stack -/

/-- The state with another snapshot, offered byte and stack, each given from the one it holds. -/
def State.replaced (s : State) (key : BitVec 16 → BitVec 16) (rnd : Byte → Byte)
    (stack : Vector Word 16 → Vector Word 16) : State :=
  { s with key := key s.key, rndIn := rnd s.rndIn, stack := stack s.stack }

section
variable (key : BitVec 16 → BitVec 16) (rnd : Byte → Byte) (stack : Vector Word 16 → Vector Word 16)

theorem State.skipIf_replaced (s : State) (c : Bool) :
    (s.replaced key rnd stack).skipIf c = (s.skipIf c).replaced key rnd stack := by cases c <;> rfl

theorem State.loadBlock_replaced (s : State) (n : Nat) :
    (s.replaced key rnd stack).loadBlock n = (s.loadBlock n).replaced key rnd stack := by
  induction n with
  | zero => rfl
  | succ k ih => rw [State.loadBlock, State.loadBlock, ih, State.loadBlock_eq]; rfl

theorem State.checkRange_replaced {s : State} {n : Nat} {k : State → State}
    (hk : k (s.replaced key rnd stack) = (k s).replaced key rnd stack) :
    (s.replaced key rnd stack).checkRange n k = Result.map (·.replaced key rnd stack) (s.checkRange n k) := by
  cases h : outOfRange s.i n with
  | false => rw [State.checkRange_ok h, State.checkRange_ok (s := s.replaced key rnd stack) h, hk]; rfl
  | true => rw [State.checkRange_fault h, State.checkRange_fault (s := s.replaced key rnd stack) h]; rfl

theorem State.checkIndex_replaced {s : State} {c : FaultCause} {v : Byte} {k : Nibble → State → State}
    (hk : ∀ d, k d (s.replaced key rnd stack) = (k d s).replaced key rnd stack) :
    (s.replaced key rnd stack).checkIndex c v k = Result.map (·.replaced key rnd stack) (s.checkIndex c v k) := by
  by_cases h : v.toNat ≤ 0xF
  · rw [State.checkIndex_ok h, State.checkIndex_ok h, hk]; rfl
  · rw [State.checkIndex_fault (by omega), State.checkIndex_fault (by omega)]; rfl

theorem State.push_replaced {s : State} {v : Word} {k : State → State}
    (hk : ∀ t : State, k (t.replaced key rnd id) = (k t).replaced key rnd id) :
    (s.replaced key rnd id).push v k = Result.map (·.replaced key rnd id) (s.push v k) := by
  rcases Nat.lt_trichotomy s.sp.toNat 16 with h | h | h
  · rw [State.push_ok h, State.push_ok (s := s.replaced key rnd id) h, Result.map, ← hk]; rfl
  · rw [State.push_full h, State.push_full (s := s.replaced key rnd id) h]; rfl
  · rw [State.push_impossible h, State.push_impossible (s := s.replaced key rnd id) h]; rfl

theorem State.pop_replaced {s : State} {k : Word → State → State}
    (hk : ∀ a (t : State), k a (t.replaced key rnd id) = (k a t).replaced key rnd id) :
    (s.replaced key rnd id).pop k = Result.map (·.replaced key rnd id) (s.pop k) := by
  by_cases h0 : s.sp = 0
  · rw [State.pop_empty h0, State.pop_empty (s := s.replaced key rnd id) h0]; rfl
  by_cases h : s.sp.toNat - 1 < 16
  · rw [State.pop_ok h0 h, State.pop_ok (s := s.replaced key rnd id) h0 h, Result.map, ← hk]; rfl
  · have hbig : 16 < s.sp.toNat := by omega
    rw [State.pop_impossible hbig, State.pop_impossible (s := s.replaced key rnd id) hbig]; rfl

/-- An instruction that reads none of what is replaced runs as before, and leaves it replaced: the snapshot is read by
SKP, SKNP and LD Vx,K alone, the offered byte by RND alone, the stack by CALL and RET alone. -/
theorem exec_replaced {i : Instr}
    (hkey : ((∀ x dc, i ≠ .skp x dc) ∧ (∀ x dc, i ≠ .sknp x dc) ∧ ∀ x, i ≠ .ldVxK x) ∨ key = id)
    (hrnd : (∀ x kk, i ≠ .rnd x kk) ∨ rnd = id)
    (hstack : ((∀ nnn, i ≠ .call nnn) ∧ ∀ dc, i ≠ .ret dc) ∨ stack = id) (s : State) :
    exec i (s.replaced key rnd stack) = Result.map (·.replaced key rnd stack) (exec i s) := by
  cases i with
  | skp x dc =>
    obtain ⟨h, -, -⟩ | rfl := hkey
    · exact absurd rfl (h x dc)
    · rw [exec_skp, exec_skp]
      exact State.checkIndex_replaced _ _ _ fun _ => State.skipIf_replaced ..
  | sknp x dc =>
    obtain ⟨-, h, -⟩ | rfl := hkey
    · exact absurd rfl (h x dc)
    · rw [exec_sknp, exec_sknp]
      exact State.checkIndex_replaced _ _ _ fun _ => State.skipIf_replaced ..
  | ldVxK x =>
    obtain ⟨-, -, h⟩ | rfl := hkey
    · exact absurd rfl (h x)
    · have hl : (s.replaced id rnd stack).leastKey = s.leastKey := rfl
      simp only [exec, execLdVxK, hl]
      cases s.leastKey <;> rfl
  | rnd x kk =>
    obtain h | rfl := hrnd
    · exact absurd rfl (h x kk)
    · rfl
  | call nnn =>
    obtain ⟨h, -⟩ | rfl := hstack
    · exact absurd rfl (h nnn)
    · rw [exec_call, exec_call]
      exact State.push_replaced _ _ fun _ => rfl
  | ret dc =>
    obtain ⟨-, h⟩ | rfl := hstack
    · exact absurd rfl (h dc)
    · rw [exec_ret, exec_ret]
      exact State.pop_replaced _ _ fun _ _ => rfl
  | drw x y n => rw [exec_drw, exec_drw]; exact State.checkRange_replaced _ _ _ rfl
  | ldBVx x => rw [exec_ldBVx, exec_ldBVx]; exact State.checkRange_replaced _ _ _ rfl
  | ldMemVx x => rw [exec_ldMemVx, exec_ldMemVx]; exact State.checkRange_replaced _ _ _ rfl
  | ldVxMem x =>
    rw [exec_ldVxMem, exec_ldVxMem]
    exact State.checkRange_replaced _ _ _ (State.loadBlock_replaced ..)
  | ldFVx x => rw [exec_ldFVx, exec_ldFVx]; exact State.checkIndex_replaced _ _ _ fun _ => rfl
  | seVxKk x kk => exact congrArg Host.Outcome.next (State.skipIf_replaced ..)
  | sneVxKk x kk => exact congrArg Host.Outcome.next (State.skipIf_replaced ..)
  | seVxVy x y dc => exact congrArg Host.Outcome.next (State.skipIf_replaced ..)
  | sneVxVy x y dc => exact congrArg Host.Outcome.next (State.skipIf_replaced ..)
  | _ => rfl

end

/-- Settles O50. -/
theorem onlyRndReadsTheOfferedByte : Obligations.OnlyRndReadsTheOfferedByte := fun _ s b hi =>
  exec_replaced id (fun _ => b) id (.inr rfl) (.inl hi) (.inr rfl) s

/-- Settles O51. -/
theorem onlyKeyInstructionsReadKeys : Obligations.OnlyKeyInstructionsReadKeys := fun _ s ks h1 h2 h3 =>
  exec_replaced (fun _ => ks) id id (.inl ⟨h1, h2, h3⟩) (.inr rfl) (.inr rfl) s

/-- Settles O57: no meaning reads the argument `dc`. -/
theorem dontCareBitsHaveNoEffect : Obligations.DontCareBitsHaveNoEffect := by
  intro i s
  cases i <;> exact ⟨rfl, rfl⟩

/-! ### Stale stack entries -/

theorem toNat_sp_succ {sp : BitVec 8} (h : sp.toNat < 16) : (sp + 1).toNat = sp.toNat + 1 := by
  bv_omega

theorem toNat_sp_pred {sp : BitVec 8} (h : sp ≠ 0) : (sp - 1).toNat + 1 = sp.toNat := by
  bv_omega

/-- The stack and its pointer are what they were after every instruction but CALL and RET. -/
theorem exec_stack_kept {i : Instr} {s t : State} (h : exec i s = .next t) (h1 : ∀ nnn, i ≠ .call nnn)
    (h2 : ∀ dc, i ≠ .ret dc) : t.sp = s.sp ∧ t.stack = s.stack := by
  rcases exec_completes_or_raises h with rfl | ⟨c, w, rfl⟩
  · exact completed_stack i s h1 h2
  · exact ⟨rfl, rfl⟩

theorem call_keeps_sameButStaleStack {s t t' : State} {k : Vector Word 16} {nnn : Addr12}
    (hk : ∀ j : Fin 16, j.val < s.sp.toNat → k[j] = s.stack[j]) (h : exec (.call nnn) s = .next t)
    (h' : exec (.call nnn) { s with stack := k } = .next t') : SameButStaleStack t t' := by
  rw [exec_call] at h h'
  rcases State.push_cases h with ⟨hsp, rfl⟩ | ⟨hsp, rfl⟩ <;>
    rcases State.push_cases h' with ⟨hsp', rfl⟩ | ⟨hsp', rfl⟩
  · refine ⟨rfl, fun j hj => ?_⟩
    have hj : j.val < s.sp.toNat + 1 := toNat_sp_succ hsp ▸ hj
    show (k.set s.sp.toNat s.pc)[j.val] = (s.stack.set s.sp.toNat s.pc)[j.val]
    rw [Vector.getElem_set, Vector.getElem_set]
    split
    · rfl
    · exact hk j (by omega)
  · exact absurd hsp' hsp.ne
  · exact absurd hsp hsp'.ne
  · exact ⟨rfl, hk⟩

theorem ret_keeps_sameButStaleStack {s t t' : State} {k : Vector Word 16} {dc : BitVec 8}
    (hk : ∀ j : Fin 16, j.val < s.sp.toNat → k[j] = s.stack[j]) (h : exec (.ret dc) s = .next t)
    (h' : exec (.ret dc) { s with stack := k } = .next t') : SameButStaleStack t t' := by
  rw [exec_ret] at h h'
  rcases State.pop_cases h with ⟨hlt, h0, rfl⟩ | ⟨h0, rfl⟩ <;>
    rcases State.pop_cases h' with ⟨_, h0', rfl⟩ | ⟨h0', rfl⟩
  · have hpred : (s.sp - 1).toNat + 1 = s.sp.toNat := toNat_sp_pred h0
    have htop : k[s.sp.toNat - 1] = s.stack[s.sp.toNat - 1] :=
      hk ⟨s.sp.toNat - 1, hlt⟩ (by show s.sp.toNat - 1 < _; omega)
    refine ⟨?_, fun j hj => hk j ?_⟩
    · show State.setPc _ k[s.sp.toNat - 1] = _
      rw [htop]; rfl
    · have hj : j.val < (s.sp - 1).toNat := hj
      omega
  · exact absurd h0' h0
  · exact absurd h0 h0'
  · exact ⟨rfl, hk⟩

/-- Settles O52: CALL writes the entry its pointer then counts as in use, RET reads one that was in use, and no other
instruction reads or writes the stack. -/
theorem staleStackUnobservable : Obligations.StaleStackUnobservable := by
  rintro i s s' t t' ⟨e, hk⟩ h h'
  generalize s'.stack = k at e hk
  subst e
  by_cases hcall : ∃ nnn, i = .call nnn
  · obtain ⟨nnn, rfl⟩ := hcall
    exact call_keeps_sameButStaleStack hk h h'
  by_cases hret : ∃ dc, i = .ret dc
  · obtain ⟨dc, rfl⟩ := hret
    exact ret_keeps_sameButStaleStack hk h h'
  have h1 : ∀ nnn, i ≠ .call nnn := fun nnn e => hcall ⟨nnn, e⟩
  have h2 : ∀ dc, i ≠ .ret dc := fun dc e => hret ⟨dc, e⟩
  have hrun := exec_replaced id id (fun _ => k) (.inr rfl) (.inr rfl) (.inl ⟨h1, h2⟩) s
  rw [h] at hrun
  cases hrun.symm.trans h'
  obtain ⟨hsp, hst⟩ := exec_stack_kept h h1 h2
  refine ⟨rfl, fun j hj => ?_⟩
  rw [hst]
  exact hk j (hsp ▸ hj)

end Sys2Proof.Machine
end

section
/-! Control flow (spec/41_control_flow.md): the jumps, CALL and RET, and the states in which an instruction answers. -/

namespace Sys2Proof.Machine

/-! ### Jumps -/

theorem exec_jp (nnn : Addr12) (s : State) : exec (.jp nnn) s = .next (s.setPc (addrOperand nnn)) := rfl

theorem exec_jpV0 (nnn : Addr12) (s : State) :
    exec (.jpV0 nnn) s = .next (s.setPc (addrOperand nnn + wordOperand (s.reg 0))) := rfl

/-- Settles O9. -/
theorem jpLoadsPc : Obligations.JpLoadsPc := fun s nnn =>
  ⟨_, exec_jp nnn s, toNat_addrOperand nnn, Frame.setPc s _⟩

/-- Settles O10. -/
theorem jpV0AddsWithoutTruncation : Obligations.JpV0AddsWithoutTruncation := fun s nnn =>
  ⟨_, exec_jpV0 nnn s, toNat_addrOperand_add nnn (s.reg 0), Frame.setPc s _⟩

/-! ### CALL and RET -/

/-- A frame of the stack operation and then of the jump. -/
theorem Frame.setStack_setPc (s : State) (k : Vector Word 16) (n : BitVec 8) (a : Word) :
    Frame [.pc, .sp, .stack] s ((s.setStack k n).setPc a) :=
  (Frame.setStack s k n).trans (Frame.setPc _ a) (by simp) (by simp)

/-- Settles O13. -/
theorem callPushesAndJumps : Obligations.CallPushesAndJumps := by
  intro s nnn hsp
  refine ⟨_, (exec_call nnn s).trans (State.push_ok hsp), toNat_addrOperand nnn, toNat_sp_succ hsp, fun j => ?_,
    Frame.setStack_setPc s _ _ _⟩
  show (s.stack.set s.sp.toNat s.pc)[j.val] = if j.val = s.sp.toNat then s.pc else s.stack[j.val]
  rw [Vector.getElem_set, if_congr eq_comm rfl rfl]

/-- RET in a state with an entry in use. -/
theorem exec_ret_of_sp_eq {s : State} {j : Fin 16} (hsp : s.sp.toNat = j.val + 1) (dc : BitVec 8) :
    exec (.ret dc) s = .next ((s.setStack s.stack (s.sp - 1)).setPc s.stack[j]) := by
  have h0 : s.sp ≠ 0 := by rintro e; simp [e] at hsp
  have hj : s.sp.toNat - 1 = j.val := by omega
  rw [exec_ret, State.pop_ok h0 (by omega)]
  simp only [hj]; rfl

/-- Settles O14. -/
theorem retPopsPc : Obligations.RetPopsPc := by
  intro s dc j hsp
  have h0 : s.sp ≠ 0 := by rintro e; simp [e] at hsp
  have hpred : (s.sp - 1).toNat + 1 = s.sp.toNat := toNat_sp_pred h0
  have hframe : Frame [.stack, .pc, .sp] s ((s.setStack s.stack (s.sp - 1)).setPc s.stack[j]) :=
    (Frame.setStack_setPc s _ _ _).mono (by simp)
  exact ⟨_, exec_ret_of_sp_eq hsp dc, rfl, by simp only [State.setPc_sp, State.setStack_sp]; omega,
    hframe.of_same fun _ => rfl⟩

/-- Settles O15. -/
theorem stackLimitsTrap : Obligations.StackLimitsTrap := fun s nnn dc =>
  ⟨fun h => ⟨_, (exec_call nnn s).trans (State.push_full (congrArg BitVec.toNat h)), TrapEntry.raise s (by decide) 16⟩,
    fun h => ⟨_, (exec_ret dc s).trans (State.pop_empty h), TrapEntry.raise s (by decide) 0⟩⟩

/-- Settles O17: the entry a CALL pushed is the one its stack pointer has RET pop. -/
theorem callThenRetReturns : Obligations.CallThenRetReturns := by
  intro s t u nnn dc j hj hcall hsp hst
  obtain ⟨t', ht', -, htsp, htst, -⟩ := callPushesAndJumps s nnn (by omega)
  cases ht'.symm.trans hcall
  obtain ⟨w, hw, hwpc, hwsp, -⟩ := retPopsPc u dc j (by rw [hsp, htsp, hj])
  exact ⟨w, hw, by rw [hwpc, hst, htst, if_pos hj.symm], BitVec.eq_of_toNat_eq (hwsp.trans hj.symm)⟩

/-! ### The states in which an instruction answers -/

theorem State.checkRange_answers (s : State) (n : Nat) (k : State → State) : ∃ t, s.checkRange n k = .next t := by
  cases h : outOfRange s.i n
  · exact ⟨_, State.checkRange_ok h⟩
  · exact ⟨_, State.checkRange_fault h⟩

theorem State.checkIndex_answers (s : State) (c : FaultCause) (v : Byte) (k : Nibble → State → State) :
    ∃ t, s.checkIndex c v k = .next t := by
  by_cases h : v.toNat ≤ 0xF
  · exact ⟨_, State.checkIndex_ok h⟩
  · exact ⟨_, State.checkIndex_fault (by omega)⟩

theorem State.push_answers {s : State} (hsp : s.sp.toNat ≤ 16) (v : Word) (k : State → State) :
    ∃ t, s.push v k = .next t := by
  rcases Nat.lt_or_eq_of_le hsp with h | h
  · exact ⟨_, State.push_ok h⟩
  · exact ⟨_, State.push_full h⟩

theorem State.pop_answers {s : State} (hsp : s.sp.toNat ≤ 16) (k : Word → State → State) : ∃ t, s.pop k = .next t := by
  by_cases h : s.sp = 0
  · exact ⟨_, State.pop_empty h⟩
  · exact ⟨_, State.pop_ok h (by omega)⟩

/-- With a stack pointer of at most 16 every instruction answers a next state; above it, all but CALL and RET do. -/
theorem exec_answers {i : Instr} {s : State}
    (h : s.sp.toNat ≤ 16 ∨ (∀ nnn, i ≠ .call nnn) ∧ ∀ dc, i ≠ .ret dc) : ∃ t, exec i s = .next t := by
  cases i with
  | call nnn => rw [exec_call]; exact State.push_answers (h.resolve_right fun e => e.1 nnn rfl) ..
  | ret dc => rw [exec_ret]; exact State.pop_answers (h.resolve_right fun e => e.2 dc rfl) _
  | drw x y n => rw [exec_drw]; exact State.checkRange_answers ..
  | ldBVx x => rw [exec_ldBVx]; exact State.checkRange_answers ..
  | ldMemVx x => rw [exec_ldMemVx]; exact State.checkRange_answers ..
  | ldVxMem x => rw [exec_ldVxMem]; exact State.checkRange_answers ..
  | skp x dc => rw [exec_skp]; exact State.checkIndex_answers ..
  | sknp x dc => rw [exec_sknp]; exact State.checkIndex_answers ..
  | ldFVx x => rw [exec_ldFVx]; exact State.checkIndex_answers ..
  | _ => exact ⟨_, rfl⟩

/-- Settles O16: above 16 CALL and RET stop by name, and in every other case the instruction answers. -/
theorem onlyImpossibleStackPointerStops : Obligations.OnlyImpossibleStackPointerStops := by
  intro s i
  by_cases h : 16 < s.sp.toNat ∧ ((∃ nnn, i = .call nnn) ∨ ∃ dc, i = .ret dc)
  · have hstop : exec i s = .fault .stackPointerRange := by
      obtain ⟨hsp, ⟨nnn, rfl⟩ | ⟨dc, rfl⟩⟩ := h
      · exact (exec_call nnn s).trans (State.push_impossible hsp)
      · exact (exec_ret dc s).trans (State.pop_impossible hsp)
    exact ⟨iff_of_true hstop h, fun r e => by cases hstop.symm.trans e⟩
  · obtain ⟨t, ht⟩ : ∃ t, exec i s = .next t := by
      refine exec_answers (or_iff_not_imp_left.2 fun hsp => ?_)
      have hno := not_or.1 (not_and.1 h (not_le.1 hsp))
      exact ⟨fun nnn e => hno.1 ⟨nnn, e⟩, fun dc e => hno.2 ⟨dc, e⟩⟩
    exact ⟨iff_of_false (fun e => by cases ht.symm.trans e) h, fun r e => by cases ht.symm.trans e⟩

/-- Settles O46. -/
theorem legalStatesAlwaysStep : Obligations.LegalStatesAlwaysStep := by
  intro s hsp
  cases hf : s.faulted with
  | true => exact ⟨_, step_faulted hf⟩
  | false =>
    by_cases hp : s.pc.toNat + 1 ≤ 0xFFF
    · obtain ⟨u, hu⟩ : ∃ u, execWord s.begin.fetched = .next u := by
        cases hd : decodeWord s.begin.fetched.op with
        | insn i => exact execWord_of_insn hd ▸ exec_answers (.inl hsp)
        | miss m => exact ⟨_, execWord_of_miss hd⟩
      exact ⟨u.finish, by rw [step_ok hf hp, hu]; rfl⟩
    · exact ⟨_, step_fetchFault hf (by omega)⟩

end Sys2Proof.Machine
end

section
/-! The shifts and RND (spec/42_alu.md), the index register and the memory transfers (spec/43_index_memory.md). -/

namespace Sys2Proof.Machine

/-! ### Shifts and RND -/

theorem exec_shrVx (x : Reg) (dc : Nibble) (s : State) :
    exec (.shrVx x dc) s = .next (s.setRegFlag x (s.reg x >>> 1) (shrOut (s.reg x))) := rfl

theorem exec_shlVx (x : Reg) (dc : Nibble) (s : State) :
    exec (.shlVx x dc) s = .next (s.setRegFlag x (s.reg x <<< 1) (shlOut (s.reg x))) := rfl

theorem exec_rnd (x : Reg) (kk : Byte) (s : State) : exec (.rnd x kk) s = .next (s.setReg x (s.rndIn &&& kk)) := rfl

/-- A bit of a byte, as a flag holds it. -/
theorem toNat_flagByte_getLsbD (a : Byte) (k : Nat) : (flagByte (a.getLsbD k)).toNat = a.toNat / 2 ^ k % 2 := by
  rw [toNat_flagByte, BitVec.getLsbD, Nat.testBit_eq_decide_div_mod_eq]
  simp only [decide_eq_true_eq]
  split <;> omega

theorem toNat_flagByte_shrOut (a : Byte) : (flagByte (shrOut a)).toNat = a.toNat % 2 := by
  rw [shrOut, toNat_flagByte_getLsbD, pow_zero, Nat.div_one]

theorem toNat_flagByte_shlOut (a : Byte) : (flagByte (shlOut a)).toNat = a.toNat / 128 := by
  have := a.isLt
  rw [shlOut, toNat_flagByte_getLsbD]; omega

theorem toNat_shiftRight_one (a : Byte) : (a >>> 1).toNat = a.toNat / 2 := by
  rw [BitVec.toNat_ushiftRight, Nat.shiftRight_eq_div_pow, pow_one]

theorem toNat_shiftLeft_one (a : Byte) : (a <<< 1).toNat = a.toNat * 2 % 256 := by
  rw [BitVec.toNat_shiftLeft, Nat.shiftLeft_eq, pow_one]

/-- Settles O7. -/
theorem shiftsSetBitShiftedOut : Obligations.ShiftsSetBitShiftedOut := fun s x dc =>
  ⟨writesVxThenFlag_of_exec_eq_setRegFlag (fun v => v.toNat = (s.reg x).toNat / 2) (exec_shrVx x dc s)
      (toNat_shiftRight_one _) (toNat_flagByte_shrOut _),
    writesVxThenFlag_of_exec_eq_setRegFlag (fun v => v.toNat = (s.reg x).toNat * 2 % 256) (exec_shlVx x dc s)
      (toNat_shiftLeft_one _) (toNat_flagByte_shlOut _)⟩

/-- Settles O8. -/
theorem rndMasksTheOfferedByte : Obligations.RndMasksTheOfferedByte := fun s x kk =>
  ⟨writesVx_of_exec_eq_setReg (fun v => ∀ b < 8, v.getLsbD b = (s.rndIn.getLsbD b && kk.getLsbD b)) (exec_rnd x kk s)
      (fun _ _ => BitVec.getLsbD_and),
    _, exec_rnd x 0 s, (State.reg_setReg_same ..).trans BitVec.and_zero⟩

/-! ### The index register -/

theorem exec_addIVx (x : Reg) (s : State) : exec (.addIVx x) s = .next (s.setI (s.i + wordOperand (s.reg x))) := rfl

/-- Settles O19. -/
theorem addIWrapsAtSixteenBits : Obligations.AddIWrapsAtSixteenBits := fun s x =>
  ⟨_, exec_addIVx x s, by rw [State.setI_i, BitVec.toNat_add, toNat_wordOperand], Frame.setI s _⟩

/-- The address of the glyph of a digit held in a byte. -/
theorem toNat_glyphAddr_setWidth {v : Byte} (h : v.toNat ≤ 0xF) :
    (glyphAddr (v.setWidth 4)).toNat = 0x050 + 5 * v.toNat := by
  have hd : (v.setWidth 4).toNat = v.toNat := (BitVec.toNat_setWidth ..).trans (Nat.mod_eq_of_lt (by omega))
  simp only [glyphAddr, hd, BitVec.toNat_ofNat, Config.fontBase, Config.fontGlyph]; omega

/-- Settles O20. -/
theorem ldFPointsAtGlyph : Obligations.LdFPointsAtGlyph := fun s x h =>
  ⟨_, (exec_ldFVx x s).trans (State.checkIndex_ok h), toNat_glyphAddr_setWidth h, Frame.setI s _⟩

/-! ### Block transfers -/

/-- Byte `k` of a block of stores that lies in memory. -/
theorem Memory.read_writeAll_getD {bs : List Byte} {m : Memory} {base k : Nat} (h : base + bs.length ≤ 4096)
    (hk : k < bs.length) : (m.writeAll base bs).read (base + k) = bs.getD k 0 := by
  rw [Memory.read_writeAll bs m base h, if_pos (by omega), Nat.add_sub_cancel_left]

/-- Settles O21. -/
theorem ldBStoresDecimalDigits : Obligations.LdBStoresDecimalDigits := by
  intro s x h
  have hlt := (s.reg x).isLt
  have digit {k : Nat} (hk : k < 3) :
      (s.mem.writeAll s.i.toNat (decimalDigits (s.reg x))).read (s.i.toNat + k) = (decimalDigits (s.reg x)).getD k 0 :=
    Memory.read_writeAll_getD (by rw [length_decimalDigits]; omega) hk
  refine ⟨_, (exec_ldBVx x s).trans (State.checkRange_ok (outOfRange_false (by omega))), ?_, ?_, ?_,
    fun a ha => Memory.read_writeAll_outside (length_decimalDigits _) ha, Frame.setMem s _⟩
  · exact (congrArg BitVec.toNat (digit (k := 0) (by decide))).trans (Nat.mod_eq_of_lt (by omega))
  · exact (congrArg BitVec.toNat (digit (k := 1) (by decide))).trans (Nat.mod_eq_of_lt (by omega))
  · exact (congrArg BitVec.toNat (digit (k := 2) (by decide))).trans (Nat.mod_eq_of_lt (by omega))

/-- Settles O22. -/
theorem storeBlockWritesRegisters : Obligations.StoreBlockWritesRegisters := by
  intro s x h
  have hlen : (s.block x).length = x.toNat + 1 := State.length_block s x
  refine ⟨_, (exec_ldMemVx x s).trans (State.checkRange_ok (outOfRange_false (by simp only [blockCount]; omega))),
    fun k hk => ?_, fun a ha => Memory.read_writeAll_outside hlen ha, Frame.setMem s _⟩
  refine (Memory.read_writeAll_getD (by omega) (by omega)).trans ?_
  rw [State.getD_block s x _ hk, BitVec.ofNat_toNat, BitVec.setWidth_eq]

theorem Frame.loadBlock (s : State) (n : Nat) : Frame [.regs] s (s.loadBlock n) := by
  induction n with
  | zero => exact fun p _ => by cases p <;> simp [Part.same, State.loadBlock]
  | succ k ih => exact ih.trans (Frame.setReg _ _ _) (fun _ h => h) (fun _ h => h)

/-- Settles O23. -/
theorem loadBlockReadsRegisters : Obligations.LoadBlockReadsRegisters := by
  intro s x h
  have load (k : Reg) : (s.loadBlock (blockCount x)).reg k =
      if k.toNat < blockCount x then s.mem.read (s.i.toNat + k.toNat) else s.reg k :=
    State.reg_loadBlock s _ (Nat.succ_le_of_lt x.isLt) k
  refine ⟨_, (exec_ldVxMem x s).trans (State.checkRange_ok (outOfRange_false (by simp only [blockCount]; omega))),
    fun k hk => ?_, fun k hk => ?_, Frame.loadBlock s _⟩
  · exact (load k).trans (if_pos (Nat.lt_succ_of_le hk))
  · exact (load k).trans (if_neg fun e => hk (Nat.le_of_lt_succ e))

/-! ### Range faults -/

/-- An instruction behind a range check that fails records MEM_RANGE. -/
theorem traps_of_exec_eq_checkRange {i : Instr} {s : State} {n : Nat} {k : State → State}
    (h : exec i s = s.checkRange n k) (h0 : 0 < n) (hr : 0xFFF < s.i.toNat + n - 1) :
    ∃ t, exec i s = .next t ∧ TrapEntry 4 (BitVec.ofNat 16 (max s.i.toNat 0x1000)) s t :=
  ⟨_, h.trans (State.checkRange_fault (outOfRange_true h0 hr)),
    firstOutside_eq s.i ▸ TrapEntry.raise s (c := .memRange) (by decide) _⟩

/-- Settles O24. -/
theorem memRangeTraps : Obligations.MemRangeTraps := fun s x y n =>
  ⟨fun h0 hr => traps_of_exec_eq_checkRange (exec_drw x y n s) h0 hr,
    fun hr => traps_of_exec_eq_checkRange (exec_ldBVx x s) (by decide) hr,
    fun hr => ⟨traps_of_exec_eq_checkRange (exec_ldMemVx x s) (Nat.succ_pos _) hr,
      traps_of_exec_eq_checkRange (exec_ldVxMem x s) (Nat.succ_pos _) hr⟩⟩

/-- An instruction behind an index check that fails records its cause with the value. -/
theorem traps_of_exec_eq_checkIndex {i : Instr} {s : State} {c : FaultCause} {v : Byte} {k : Nibble → State → State}
    (h : exec i s = s.checkIndex c v k) (hc : c ≠ .fetchRange) (hv : 0xF < v.toNat) :
    ∃ t, exec i s = .next t ∧ TrapEntry c.code (BitVec.ofNat 16 v.toNat) s t :=
  ⟨_, h.trans (State.checkIndex_fault hv), by rw [BitVec.ofNat_toNat]; exact TrapEntry.raise s hc _⟩

/-- Settles O29. -/
theorem indexAboveFTraps : Obligations.IndexAboveFTraps := fun s x dc hv =>
  ⟨traps_of_exec_eq_checkIndex (exec_skp x dc s) (by decide) hv,
    traps_of_exec_eq_checkIndex (exec_sknp x dc s) (by decide) hv,
    traps_of_exec_eq_checkIndex (exec_ldFVx x s) (by decide) hv⟩

end Sys2Proof.Machine
end

section
/-! The display (spec/44_display.md): DRW and drawing twice. The keypad and the timers (spec/45_keypad_timer_ops.md). -/

namespace Sys2Proof.Machine

/-! ### DRW -/

/-- The draw toggles the pixels the sprite's on bits cover (R273). -/
theorem State.pixel_draw_of_on {s : State} {x y : Reg} {n : Nibble} {px : Fin 64} {py : Fin 32}
    (h : spriteAt s x y n px py) : (s.draw x y n).fb.pixel px py = !(s.fb.pixel px py) := by
  refine (pixel_drawSprite ..).trans ?_
  rw [(spriteAt_iff ..).1 h, Bool.xor_true]

/-- The draw leaves every other pixel. -/
theorem State.pixel_draw_of_off {s : State} {x y : Reg} {n : Nibble} {px : Fin 64} {py : Fin 32}
    (h : ¬ spriteAt s x y n px py) : (s.draw x y n).fb.pixel px py = s.fb.pixel px py := by
  refine (pixel_drawSprite ..).trans ?_
  rw [Bool.eq_false_iff.2 (mt (spriteAt_iff ..).2 h), Bool.xor_false]

/-- The draw's collision report (R273). -/
theorem State.hit_draw (s : State) (x y : Reg) (n : Nibble) :
    (drawSprite s.mem s.i.toNat n.toNat (startColumn (s.reg x)) (startRow (s.reg y)) s.fb).2 = true ↔
      ∃ px py, spriteAt s x y n px py ∧ s.fb.pixel px py = true := by
  simp only [spriteAt_iff]
  exact hit_drawSprite ..

theorem State.vf_draw_of_hit {s : State} {x y : Reg} {n : Nibble}
    (h : ∃ px py, spriteAt s x y n px py ∧ s.fb.pixel px py = true) : (s.draw x y n).reg 15 = 1 :=
  (State.reg_setFlag ..).trans ((if_pos rfl).trans (congrArg flagByte ((s.hit_draw x y n).2 h)))

theorem State.vf_draw_of_no_hit {s : State} {x y : Reg} {n : Nibble}
    (h : ¬ ∃ px py, spriteAt s x y n px py ∧ s.fb.pixel px py = true) : (s.draw x y n).reg 15 = 0 :=
  (State.reg_setFlag ..).trans
    ((if_pos rfl).trans (congrArg flagByte (Bool.eq_false_iff.2 (mt (s.hit_draw x y n).1 h))))

theorem Frame.draw (s : State) (x y : Reg) (n : Nibble) : Frame [.regs, .fb] s (s.draw x y n) :=
  (Frame.setFb s _).trans (Frame.setReg _ vf _) (by simp) (by simp)

/-- Settles O26. -/
theorem drwXorsSpriteAndReportsCollision : Obligations.DrwXorsSpriteAndReportsCollision := by
  intro s x y n h
  have hr : outOfRange s.i n.toNat = false := outOfRange_false (h.imp_right fun e => by rw [e]; rfl)
  exact ⟨_, (exec_drw x y n s).trans (State.checkRange_ok hr),
    fun px py => ⟨State.pixel_draw_of_on, State.pixel_draw_of_off⟩, State.vf_draw_of_hit, State.vf_draw_of_no_hit,
    fun r hr => (State.reg_setFlag ..).trans (if_neg hr), Frame.draw s x y n⟩

/-- The pixels a sprite covers depend on the coordinate registers, I and memory alone. -/
theorem spriteAt_congr {s t : State} {x y : Reg} (hx : t.reg x = s.reg x) (hy : t.reg y = s.reg y) (hi : t.i = s.i)
    (hm : ∀ a, t.mem.read a = s.mem.read a) (n : Nibble) (px : Fin 64) (py : Fin 32) :
    spriteAt t x y n px py ↔ spriteAt s x y n px py := by
  simp only [spriteAt, hx, hy, hi, hm]

/-- Settles O27: the first draw leaves all the second reads but the pixels, so the second toggles the same pixels
back. -/
theorem drawingTwiceErases : Obligations.DrawingTwiceErases := by
  intro s t u x y n hx hy h hst htu
  obtain ⟨t', ht', hpix, -, -, hregs, hframe⟩ := drwXorsSpriteAndReportsCollision s x y n h
  cases ht'.symm.trans hst
  have hi : t.i = s.i := hframe .index (by decide)
  have same (px : Fin 64) (py : Fin 32) : spriteAt t x y n px py ↔ spriteAt s x y n px py :=
    spriteAt_congr (hregs x hx) (hregs y hy) hi (hframe .mem (by decide)) n px py
  obtain ⟨u', hu', hpix', hhit, hnohit, -, -⟩ := drwXorsSpriteAndReportsCollision t x y n (by rwa [hi])
  cases hu'.symm.trans htu
  simp only [same] at hpix' hhit hnohit
  refine ⟨fun px py => ?_, fun hvf => ?_, hhit⟩
  · by_cases hon : spriteAt s x y n px py
    · rw [(hpix' px py).1 hon, (hpix px py).1 hon, Bool.not_not]
    · rw [(hpix' px py).2 hon, (hpix px py).2 hon]
  · by_contra hno
    exact absurd ((hnohit hno).symm.trans hvf) (by decide)

/-! ### The keypad -/

/-- Settles O28. -/
theorem keySkipsTestTheSnapshot : Obligations.KeySkipsTestTheSnapshot := by
  intro s x dc hx
  have hkey : s.keyDown ((s.reg x).setWidth 4) = s.key.getLsbD (s.reg x).toNat := s.keyDown_setWidth hx
  refine ⟨skips_of_exec_eq_skipIf ((exec_skp x dc s).trans (State.checkIndex_ok hx)) (by rw [hkey]), ?_⟩
  simp only [← ite_not (p := s.key.getLsbD (s.reg x).toNat = true)]
  exact skips_of_exec_eq_skipIf ((exec_sknp x dc s).trans (State.checkIndex_ok hx)) (by simp [hkey])

theorem exec_ldVxK_of_key {s : State} {k : Nat} (h : s.leastKey = some k) (x : Reg) :
    exec (.ldVxK x) s = .next (s.setReg x (BitVec.ofNat 8 k)) := by
  simp only [exec, execLdVxK, h]

theorem exec_ldVxK_of_none {s : State} (h : s.key = 0) (x : Reg) :
    exec (.ldVxK x) s = .next (s.setPc (s.pc - 2)).setBlocked := by
  simp only [exec, execLdVxK, State.leastKey_none.2 h]

/-- A pressed key with no lower one pressed is the least pressed key. -/
theorem State.leastKey_eq_some {s : State} {k : Nat} (hk : s.key.getLsbD k = true)
    (hmin : ∀ j, j < k → s.key.getLsbD j = false) : s.leastKey = some k := by
  cases h : s.leastKey with
  | none => simp [State.leastKey_none.1 h] at hk
  | some j =>
    obtain ⟨-, hj, hjmin⟩ := State.leastKey_some h
    rcases Nat.lt_trichotomy j k with hlt | rfl | hlt
    · cases hj.symm.trans (hmin j hlt)
    · rfl
    · cases hk.symm.trans (hjmin k hlt)

/-- Settles O31. -/
theorem keyWaitStoresLeastKey : Obligations.KeyWaitStoresLeastKey := fun _ x k hk hmin =>
  writesVx_of_exec_eq_setReg (fun v => v.toNat = k.val) (exec_ldVxK_of_key (State.leastKey_eq_some hk hmin) x)
    (Nat.mod_eq_of_lt (by omega))

/-! ### The timers -/

theorem exec_ldVxDt (x : Reg) (s : State) : exec (.ldVxDt x) s = .next (s.setReg x s.dt) := rfl

/-- Settles O30. -/
theorem timerLoadsCopy : Obligations.TimerLoadsCopy := fun s x =>
  ⟨writesVx_of_exec_eq_setReg (· = s.dt) (exec_ldVxDt x s) rfl,
    ⟨_, exec_ldDtVx x s, rfl, Frame.setDt s _⟩, ⟨_, exec_ldStVx x s, rfl, Frame.setSt s _⟩⟩

end Sys2Proof.Machine
end

section
/-! The step (spec/40_cycle_and_decode.md): its end, a decode miss, the key wait, and the steps that fault or are inert
(spec/60_exceptions.md R320–R324). -/

namespace Sys2Proof.Machine

/-! ### The end of a step -/

theorem State.finish_status {u : State} (h : u.faulted = false) :
    u.finish.status = if u.locals.blocked then 1 else 0 := by
  obtain ⟨_, _, _, _, e⟩ := State.finish_of_ok h
  rw [e]; rfl

@[simp] theorem State.finish_locals (u : State) : u.finish.locals = StepLocals.idle := by
  obtain ⟨_, _, _, _, e⟩ := State.finish_eq u
  rw [e]

theorem State.hostDrive_of_cons {s : State} {i : HostInput} {rest : List HostInput} (h : s.pending = i :: rest) :
    s.hostDrive = { s with keyIn := i.keys, rndIn := i.rnd, pending := rest } := by
  simp only [State.hostDrive, h]

theorem State.hostDrive_of_nil {s : State} (h : s.pending = []) :
    s.hostDrive = { s with keyIn := Config.hostKeys s.tick, rndIn := Config.hostRnd s.tick, tick := s.tick + 1 } := by
  simp only [State.hostDrive, h]

/-- What the host drives next depends on the run's pending list and the tick, and the end phases touch neither. -/
theorem State.finish_eq_hostDrive (u : State) :
    ∃ v : State, u.finish = v.hostDrive ∧ v.pending = u.pending ∧ v.tick = u.tick := by
  refine ⟨u.endPhases.clearLocals.closeLoad, rfl, ?_, ?_⟩ <;>
    cases h : u.faulted <;> simp [State.endPhases_faulted, State.endPhases_ok, h]

/-- Settles O34. -/
theorem endOfStepRunsTimersAndStatus : Obligations.EndOfStepRunsTimersAndStatus := by
  intro u
  obtain ⟨v, e, hpend, htick⟩ := u.finish_eq_hostDrive
  refine ⟨fun h => ?_, fun h => Frame.finish_of_faulted (u.faulted_iff.2 h), u.finish_locals, u.finish_loadClosed,
    fun i rest h => ?_, fun h => ?_⟩
  · have hf : u.faulted = false := u.not_faulted_iff.2 h
    obtain ⟨hdt, hst, htone⟩ := State.finish_counts_timers_down hf
    exact ⟨hdt, hst, htone.trans (BitVec.toNat_inj (y := 1)), State.finish_status hf, Frame.finish_of_ok hf⟩
  · rw [e, State.hostDrive_of_cons (hpend.trans h)]
    exact ⟨rfl, rfl, rfl, htick⟩
  · rw [e, State.hostDrive_of_nil (hpend.trans h), htick]
    exact ⟨rfl, rfl, hpend.trans h, rfl⟩

/-! ### A step that completes -/

/-- Settles O33. -/
theorem stepRunsTheDecodedInstruction : Obligations.StepRunsTheDecodedInstruction := by
  intro s i hf hp hd
  have hw : decodeWord s.begin.fetched.op = .insn i := (decode_fetchBytes_insn s i).1 hd
  exact ⟨by rw [step_ok (s.not_faulted_iff.2 hf) hp, execWord_of_insn hw], rfl, rfl, rfl, rfl, Frame.begin_fetched s⟩

/-- Settles O35. -/
theorem decodeMissIsNoOp : Obligations.DecodeMissIsNoOp := by
  intro s m hf hp hd
  have hnf : s.faulted = false := s.not_faulted_iff.2 hf
  have hw : decodeWord s.begin.fetched.op = .miss m := (decode_fetchBytes_miss s m).1 hd
  have hstep : step s = .next s.begin.fetched.finish := by rw [step_ok hnf hp, execWord_of_miss hw]; rfl
  have hend := Frame.finish_of_ok (s := s.begin.fetched) hnf
  obtain ⟨hdt, hst, htone⟩ := State.finish_counts_timers_down (u := s.begin.fetched) hnf
  exact ⟨_, hstep, hend .op (by decide), State.finish_pc _, hdt, hst, htone.trans (BitVec.toNat_inj (y := 1)),
    State.finish_status hnf, hend .key (by decide), (Frame.begin_fetched s).trans hend (by simp) (by simp)⟩

/-- A key wait, from the fetch on: the fetch's advance of the pc is taken back. -/
theorem Frame.keyWait (s : State) :
    Frame [.key, .op, .locals] s (s.begin.fetched.setPc (s.begin.fetched.pc - 2)).setBlocked := by
  have hblocked (t : State) : Frame [.locals] t t.setBlocked := by
    intro p hp
    cases p <;> simp_all [Part.same]
  have h : Frame [.pc, .key, .op, .locals] s (s.begin.fetched.setPc (s.begin.fetched.pc - 2)).setBlocked :=
    ((Frame.begin_fetched s).trans (Frame.setPc _ _) (fun _ h => h) (by simp)).trans (hblocked _) (fun _ h => h)
      (by simp)
  exact h.of_same (BitVec.add_sub_cancel s.pc 2)

/-- Settles O32. -/
theorem keyWaitBlocksTheStep : Obligations.KeyWaitBlocksTheStep := by
  intro s x hf hp hk hd
  have hnf : s.faulted = false := s.not_faulted_iff.2 hf
  have hw : decodeWord s.begin.fetched.op = .insn (.ldVxK x) := (decode_fetchBytes_insn s _).1 hd
  have hstep : step s = .next (s.begin.fetched.setPc (s.begin.fetched.pc - 2)).setBlocked.finish := by
    rw [step_ok hnf hp, execWord_of_insn hw, exec_ldVxK_of_none hk]; rfl
  have hend := Frame.finish_of_ok (s := (s.begin.fetched.setPc (s.begin.fetched.pc - 2)).setBlocked) hnf
  obtain ⟨hdt, hst, -⟩ :=
    State.finish_counts_timers_down (u := (s.begin.fetched.setPc (s.begin.fetched.pc - 2)).setBlocked) hnf
  have hframe := (Frame.keyWait s).trans hend (rs := [.op, .dt, .st, .tone, .status, .key, .ports, .locals])
    (by simp) (by simp)
  exact ⟨_, hstep, hframe .pc (by decide), State.finish_status hnf, hdt, hst, hframe⟩

/-! ### The status -/

/-- Only LD Vx,K blocks a step, and only with no key pressed (R293). -/
theorem exec_blocked_iff {i : Instr} {s t : State} (h : exec i s = .next t) (hb : s.locals.blocked = false) :
    t.locals.blocked = true ↔ (∃ x, i = .ldVxK x) ∧ s.key = 0 := by
  by_cases hi : ∃ x, i = .ldVxK x
  · obtain ⟨x, rfl⟩ := hi
    by_cases hk : s.key = 0
    · rw [exec_ldVxK_of_none hk] at h
      cases h
      exact iff_of_true rfl ⟨⟨x, rfl⟩, hk⟩
    · obtain ⟨k, hl⟩ := Option.ne_none_iff_exists'.1 (mt State.leastKey_none.1 hk)
      rw [exec_ldVxK_of_key hl] at h
      cases h
      exact iff_of_false (by simp [hb]) fun e => hk e.2
  · have hloc : t.locals = s.locals := by
      rcases exec_completes_or_raises h with rfl | ⟨c, w, rfl⟩
      · exact completed_locals i s fun x e => hi ⟨x, e⟩
      · rfl
    exact iff_of_false (by simp [hloc, hb]) fun e => hi e.1

theorem execWord_blocked_iff {s t : State} (h : execWord s = .next t) (hb : s.locals.blocked = false) :
    t.locals.blocked = true ↔ (∃ x, decodeWord s.op = .insn (.ldVxK x)) ∧ s.key = 0 := by
  cases hd : decodeWord s.op with
  | insn i =>
    rw [execWord_of_insn hd] at h
    simpa using exec_blocked_iff h hb
  | miss m =>
    rw [execWord_of_miss hd] at h
    cases h
    simp [hb]

/-- Settles O37: the status is written from `blocked`, which the step's start clears and only a key wait sets. -/
theorem statusReportsKeyWait : Obligations.StatusReportsKeyWait := by
  intro s t hs h ht
  obtain ⟨u, hu, hf, rfl⟩ := step_completed hs h ht
  have hop : s.begin.fetched.op = s.wordAt s.pc.toNat := rfl
  have hkey : s.begin.fetched.key = s.keyIn := rfl
  have hb := execWord_blocked_iff hu rfl
  rw [hop, hkey] at hb
  simp only [decode_fetchBytes_insn, ← hb, State.finish_status hf]
  exact ⟨fun e => if_pos e, fun e => if_neg e⟩

/-! ### A step that faults -/

theorem Frame.begin (s : State) : Frame [.pc, .key, .op, .locals] s s.begin := by
  intro p hp
  cases p <;> simp_all [Part.same]

/-- A fault entered after the step's start, or after its fetch, leaves its record, the status, the tone and the
snapshot: the pc and the latch are put back (R321). -/
theorem Frame.raise_finish {s u : State} (h : Frame [.pc, .key, .op, .locals] s u) (hpc : u.locals.start = s.pc)
    (hop : u.locals.opBefore = s.op) (c : FaultCause) (w : Word) :
    Frame [.faultRecord, .status, .tone, .key, .ports, .locals] s (u.raise c w).finish := by
  have hraise : Frame [.pc, .op, .faultRecord, .status, .tone, .key, .locals] s (u.raise c w) :=
    h.trans (Frame.raise u c w) (by simp) (by simp)
  have hback : Frame [.faultRecord, .status, .tone, .key, .locals] s (u.raise c w) :=
    (hraise.of_same hpc).of_same hop
  exact hback.trans (Frame.finish_of_faulted (State.raise_faulted ..)) (by simp) (by simp)

/-- The record of a fault after the end of its step (R322). -/
theorem State.raise_finish_record (u : State) (c : FaultCause) (w : Word) :
    (u.raise c w).finish.faultCause = c.code ∧ (u.raise c w).finish.faultPc = u.locals.start ∧
      (u.raise c w).finish.faultWord = (if c = .fetchRange then 0 else u.op) ∧ (u.raise c w).finish.faultInfo = w ∧
      (u.raise c w).finish.status = 2 ∧ (u.raise c w).finish.toneEdge = false := by
  obtain ⟨_, _, _, _, e⟩ := State.finish_of_faulted (State.raise_faulted u c w)
  rw [e]
  exact ⟨rfl, rfl, rfl, rfl, rfl, rfl⟩

/-- Settles O38. -/
theorem fetchOutsideMemoryTraps : Obligations.FetchOutsideMemoryTraps := by
  intro s hf hp
  obtain ⟨hcause, hpc, hword, hinfo, hstatus, htone⟩ := s.begin.raise_finish_record .fetchRange (firstOutside s.pc)
  exact ⟨_, step_fetchFault (s.not_faulted_iff.2 hf) hp, hcause, hpc, hword,
    (congrArg BitVec.toNat hinfo).trans (firstOutside_toNat s.pc), hstatus, htone,
    (Frame.begin s).raise_finish rfl rfl _ _⟩

theorem FaultCause.code_eq_one_iff (c : FaultCause) : c.code = 1 ↔ c = .fetchRange := by cases c <;> decide

/-- A fault entered after the step's start, or after its fetch, is precise (R321, R322). -/
theorem State.raise_finish_precise {s u t : State} {c : FaultCause} {w : Word} (h : Frame [.pc, .key, .op, .locals] s u)
    (hpc : u.locals.start = s.pc) (hop : u.locals.opBefore = s.op)
    (hword : c ≠ .fetchRange → u.op = s.wordAt s.pc.toNat) (e : t = (u.raise c w).finish) :
    Frame [.faultRecord, .status, .tone, .key, .ports, .locals] s t ∧ t.faultPc = s.pc ∧ t.status = 2 ∧
      t.toneEdge = false ∧ t.faultCause.toNat ≤ 6 ∧ (t.faultCause = 1 → t.faultWord = 0) ∧
      (t.faultCause ≠ 1 → t.faultWord = s.wordAt s.pc.toNat) := by
  obtain ⟨rcause, rpc, rword, -, rstatus, rtone⟩ := u.raise_finish_record c w
  subst e
  rw [rcause, rpc, rword, ne_eq, c.code_eq_one_iff]
  exact ⟨h.raise_finish hpc hop c w, hpc, rstatus, rtone, c.code_le, fun e => if_pos e,
    fun e => (if_neg e).trans (hword e)⟩

/-- Settles O39: a step that records a fault enters one in its fetch or in its instruction's check, and every check
comes before the writes. -/
theorem faultsArePrecise : Obligations.FaultsArePrecise := by
  intro s t hs h ht
  rcases step_cases h with ⟨hf, -⟩ | ⟨-, -, e⟩ | ⟨-, -, -, rfl⟩ | ⟨-, -, i, u, -, hu, e⟩
  · exact absurd hs (s.faulted_iff.1 hf)
  · exact State.raise_finish_precise (Frame.begin s) rfl rfl (fun hc => absurd rfl hc) e
  · exact absurd ((State.finish_faultCause s.begin.fetched).trans hs) ht
  · rcases exec_next_cases hu with ⟨c, w, -, rfl⟩ | he
    · exact State.raise_finish_precise (Frame.begin_fetched s) rfl rfl (fun _ => rfl) e
    · have hcause : t.faultCause = 0 := by
        rw [e, State.finish_faultCause]; exact (Effect.faultCause_eq he).trans hs
      exact absurd hcause ht

/-! ### A faulted block -/

/-- Settles O40. -/
theorem faultedStepIsInert : Obligations.FaultedStepIsInert := by
  intro s hs
  have hf : s.faulted = true := s.faulted_iff.2 hs
  obtain ⟨_, _, _, _, e⟩ := State.finish_of_faulted (s := s.inert) hf
  exact ⟨_, step_faulted hf, by rw [e]; rfl, by rw [e]; rfl,
    (Frame.inert s).trans (Frame.finish_of_faulted (s := s.inert) hf) (by simp) (by simp)⟩

theorem Frame.refl (ps : List Part) (s : State) : Frame ps s s := by
  intro p _
  cases p <;> simp [Part.same]

/-- Settles O41, by induction on the number of steps: the record is in the frame of an inert step, so the state after it
is faulted too. -/
theorem faultRecordStandsForever : Obligations.FaultRecordStandsForever := by
  intro k
  induction k with
  | zero => exact fun s _ => ⟨s, rfl, Frame.refl _ s⟩
  | succ k ih =>
    intro s hs
    obtain ⟨u, hu, -, -, hsu⟩ := faultedStepIsInert s hs
    have hcause : u.faultCause = s.faultCause := (hsu .faultRecord (by decide)).1
    obtain ⟨t, ht, hut⟩ := ih u (hcause ▸ hs)
    exact ⟨t, (run_succ_of_next hu).trans ht, hsu.trans hut (fun _ h => h) (fun _ h => h)⟩

end Sys2Proof.Machine
end

section
/-! What the host does between steps (spec/70_reset_and_hazards.md R370–R374; spec/20_memory.md R73, R87): reset, the
ROM load, and that the load port stays closed after a step. -/

namespace Sys2Proof.Machine

/-! ### Reset -/

theorem length_font : Config.font.length = 80 := rfl

/-- The reset contents are the font table at 0x050–0x09F and 0 elsewhere (R73). -/
theorem Memory.resetByte_eq (a : Nat) :
    Memory.resetByte a = if 0x050 ≤ a ∧ a ≤ 0x09F then Config.font.getD (a - 0x050) 0 else 0 := by
  by_cases hlo : Config.fontBase ≤ a
  · rw [Memory.resetByte, if_pos hlo]
    by_cases hhi : a ≤ 0x09F
    · exact (if_pos ⟨hlo, hhi⟩).symm
    · have hlen : Config.font.length ≤ a - Config.fontBase := by simp only [length_font, Config.fontBase]; omega
      rw [if_neg fun e => hhi e.2, List.getD_eq_default _ _ hlen]
  · rw [Memory.resetByte, if_neg hlo, if_neg fun e => hlo e.1]

theorem State.rst_reg (s : State) (r : Reg) : s.rst.reg r = 0 := Vector.getElem_replicate ..

theorem State.rst_stack (s : State) (j : Fin 16) : s.rst.stack[j] = 0 := Vector.getElem_replicate ..

/-- Settles O58: memory lists nothing after reset, so every byte reads as its reset contents. -/
theorem resetReconstructs : Obligations.ResetReconstructs := fun s =>
  ⟨rfl, rfl, s.rst_reg, rfl, s.rst_stack, rfl, rfl, Framebuffer.pixel_clear, rfl, rfl, rfl, rfl, rfl, rfl, rfl,
    Memory.resetByte_eq, rfl, rfl, rfl, rfl, rfl⟩

/-! ### The ROM load -/

/-- A load-port write at or above 0x200 (R374). -/
theorem State.loadByte_eq {s : State} {a : Nat} (h : Config.progStart ≤ a) (ha : a < 4096) (b : Byte) :
    s.loadByte (BitVec.ofNat 12 a) b = s.setMem (s.mem.write a b) := by
  have haddr : (BitVec.ofNat 12 a).toNat = a := Nat.mod_eq_of_lt ha
  rw [State.loadByte, haddr, if_neg (by omega)]

/-- A ROM that fits is one block of stores from 0x200 upwards. -/
theorem State.loadFrom_eq (s : State) (k : Nat) (rom : List Byte) (h : Config.progStart + k + rom.length ≤ 4096) :
    s.loadFrom k rom = s.setMem (s.mem.writeAll (Config.progStart + k) rom) := by
  induction rom generalizing s k with
  | nil => rfl
  | cons b bs ih =>
    rw [List.length_cons] at h
    rw [State.loadFrom, State.loadByte_eq (by omega) (by omega), ih _ _ (by omega)]
    rfl

theorem State.loadRom_eq {s : State} {rom : List Byte} (hopen : s.loadClosed = false) (h : rom.length ≤ 3584) :
    s.loadRom rom = some (s.setMem (s.mem.writeAll 0x200 rom)) := by
  have hfit : ¬ rom.length > Config.romMax := not_lt.2 h
  rw [State.loadRom, hopen, if_neg (by decide), if_neg hfit,
    State.loadFrom_eq s 0 rom (by simp only [Config.progStart]; omega)]
  rfl

/-- Settles O59. -/
theorem romLoadCopiesVerbatim : Obligations.RomLoadCopiesVerbatim := by
  intro s rom hopen
  refine ⟨fun h => ?_, fun h => ⟨_, State.loadRom_eq hopen h, fun k hk => ?_, fun a ha => ?_, Frame.setMem s _⟩⟩
  · have hlong : rom.length > Config.romMax := h
    rw [State.loadRom, hopen, if_neg (by decide), if_pos hlong]
  · exact Memory.read_writeAll_getD (by omega) hk
  · exact Memory.read_writeAll_outside rfl ha

/-! ### The closed load port -/

/-- Every step that answers leaves the load port closed (R87). -/
theorem step_loadClosed {s t : State} (h : step s = .next t) : t.loadClosed = true := by
  rcases step_cases h with ⟨-, rfl⟩ | ⟨-, -, rfl⟩ | ⟨-, -, -, rfl⟩ | ⟨-, -, i, u, -, -, rfl⟩ <;>
    exact State.finish_loadClosed _

/-- So does every run of at least one step. -/
theorem run_loadClosed {k : Nat} {s t : State} (h : Host.Core.run Sys2Proof.core (k + 1) s = .next t) :
    t.loadClosed = true := by
  obtain ⟨u, hu, ht⟩ := run_succ_cases h
  induction k generalizing s u with
  | zero => cases ht; exact step_loadClosed hu
  | succ k ih =>
    obtain ⟨v, hv, hvt⟩ := run_succ_cases ht
    exact ih ht v hv hvt

/-- Settles O60. -/
theorem loadOnlyBeforeFirstStep : Obligations.LoadOnlyBeforeFirstStep := fun _ _ _ h =>
  ⟨fun _ => if_pos (run_loadClosed h), fun _ _ => if_pos (run_loadClosed h)⟩

end Sys2Proof.Machine
end
